-- ==== Sys2Proof/Syntax.lean ====
section
/-! DEFINITION. The commands of the block: one constructor per row of spec/opcode_table.json (R71, R78). -/

namespace Sys2Proof

/-- One command. A command carries no operand: CMD selects it and its operands are the request
ports its rule names (R70, R72). -/
inductive Instr where
  /-- BIT.GET, CMD 0x10 (R110). -/
  | bitGet
  /-- BIT.SET, CMD 0x11 (R111). -/
  | bitSet
  /-- RL.DEC, CMD 0x20 (R120). -/
  | rlDec
  /-- RL.ENC, CMD 0x21 (R121). -/
  | rlEnc
  /-- FH.DEC, CMD 0x30 (R140). -/
  | fhDec
  /-- FH.ENC, CMD 0x31 (R141). -/
  | fhEnc
  /-- CF.DEC, CMD 0x40 (R160). -/
  | cfDec
  /-- CF.ENC, CMD 0x41 (R161). -/
  | cfEnc
  /-- CVH.DEC, CMD 0x50 (R180). -/
  | cvhDec
  /-- CVH.ENC, CMD 0x51 (R181). -/
  | cvhEnc
  /-- CAVH.ENC, CMD 0x61 (R200). -/
  | cavhEnc
  /-- FRAME.DEC, CMD 0x70 (R210). -/
  | frameDec
  /-- FRAME.ENC, CMD 0x71 (R211). -/
  | frameEnc
  /-- reserved_CAVH.DEC, CMD 0x60: the code kept for a CONNACK decoder, illegal on this hardware (R78). -/
  | reservedCavhDec
  deriving DecidableEq, Repr

/-- The fourteen rows of the opcode table, in its order. -/
def Instr.all : List Instr :=
  [.bitGet, .bitSet, .rlDec, .rlEnc, .fhDec, .fhEnc, .cfDec, .cfEnc, .cvhDec, .cvhEnc, .cavhEnc,
    .frameDec, .frameEnc, .reservedCavhDec]

end Sys2Proof
end

