-- ==== Sys2Proof/WellFormed.lean ====
section
/-! DEFINITION. Which rows of the opcode table are commands: all but the reserved one (R71, R78). -/

namespace Sys2Proof

/-- The row is one of the 13 commands of R71. A command has no operand field, so the one check is
that the row is not the code R78 reserves. -/
def Instr.wellFormed : Instr → Bool
  | .bitGet => true
  | .bitSet => true
  | .rlDec => true
  | .rlEnc => true
  | .fhDec => true
  | .fhEnc => true
  | .cfDec => true
  | .cfEnc => true
  | .cvhDec => true
  | .cvhEnc => true
  | .cavhEnc => true
  | .frameDec => true
  | .frameEnc => true
  | .reservedCavhDec => false

end Sys2Proof
end

