-- ==== Sys2Proof/Word.lean ====
section
/-! DEFINITION. The word type of the block: every access moves one byte (R54). -/

namespace Sys2Proof

/-- One byte of IN, of OUT or of a byte port; bit 0 has weight 1 and bit 7 weight 128 (R7). -/
abbrev Byte := BitVec 8

end Sys2Proof
end

