-- ==== Sys2Proof/Decode.lean ====
section
/-! DEFINITION. The command decoder, total on every CMD byte and rejecting by name, and the encoder
(R70 to R78). -/

namespace Sys2Proof

/-! ## The fields of CMD (R70) -/

/-- CMD[7:4]. -/
def cmdFamily (c : Byte) : BitVec 4 := c.extractLsb' 4 4

/-- CMD[3:1], which must be 000. -/
def cmdSub (c : Byte) : BitVec 3 := c.extractLsb' 1 3

/-- CMD[0]: false is the decode direction, true the encode direction. -/
def cmdDir (c : Byte) : Bool := c.getLsbD 0

/-- Why a CMD byte is no row of the opcode table (R76). -/
inductive CmdReject where
  /-- CMD[3:1] is not 000. -/
  | subNotZero
  /-- FAMILY is 0 or 8 to 15. -/
  | noSuchFamily
  deriving DecidableEq, Repr

/-- The row of the opcode table that a CMD byte selects (R71), or why there is none (R76).
The reserved code 0x60 is a row of the table; its meaning is that of an illegal CMD (R78). -/
def decodeCmd (c : Byte) : Except CmdReject Instr :=
  if cmdSub c ≠ 0 then .error .subNotZero
  else
    match (cmdFamily c).toNat, cmdDir c with
    | 1, false => .ok .bitGet
    | 1, true => .ok .bitSet
    | 2, false => .ok .rlDec
    | 2, true => .ok .rlEnc
    | 3, false => .ok .fhDec
    | 3, true => .ok .fhEnc
    | 4, false => .ok .cfDec
    | 4, true => .ok .cfEnc
    | 5, false => .ok .cvhDec
    | 5, true => .ok .cvhEnc
    | 6, false => .ok .reservedCavhDec
    | 6, true => .ok .cavhEnc
    | 7, false => .ok .frameDec
    | 7, true => .ok .frameEnc
    | _, _ => .error .noSuchFamily

/-! ## The encoder (R70, R71) -/

/-- The FAMILY field of a command (R70). -/
def familyCode : Instr → BitVec 4
  | .bitGet => 1
  | .bitSet => 1
  | .rlDec => 2
  | .rlEnc => 2
  | .fhDec => 3
  | .fhEnc => 3
  | .cfDec => 4
  | .cfEnc => 4
  | .cvhDec => 5
  | .cvhEnc => 5
  | .reservedCavhDec => 6
  | .cavhEnc => 6
  | .frameDec => 7
  | .frameEnc => 7

/-- The DIR field of a command (R70). -/
def dirCode : Instr → BitVec 1
  | .bitGet => 0
  | .bitSet => 1
  | .rlDec => 0
  | .rlEnc => 1
  | .fhDec => 0
  | .fhEnc => 1
  | .cfDec => 0
  | .cfEnc => 1
  | .cvhDec => 0
  | .cvhEnc => 1
  | .reservedCavhDec => 0
  | .cavhEnc => 1
  | .frameDec => 0
  | .frameEnc => 1

/-- The CMD byte of a command: FAMILY, then SUB = 000, then DIR; always one byte (R70, R73). -/
def encode (i : Instr) : Byte := familyCode i ++ (0#3) ++ dirCode i

/-! ## The opcode table's own numbering -/

/-- What the decoder reads from a table word `w` of `nbits` bits: the word is one CMD byte (R73). -/
def decodeTableWord (nbits w : Nat) : Option Instr :=
  if w % 2 ^ nbits < 256 then
    match decodeCmd (BitVec.ofNat 8 (w % 2 ^ nbits)) with
    | .ok i => some i
    | .error _ => none
  else none

end Sys2Proof
end

