-- ==== Sys2Proof/Config.lean ====
section
/-! DEFINITION. The constants the source fixes (R5) and the three implementation parameters (R6).
An OPEN parameter is an opaque constant with no body, so that no proof can use a value of it. -/

namespace Sys2Proof

/-! ## Constants (R5) -/

/-- RL_MAX_BYTES: a Remaining Length field has at most 4 bytes (R5). -/
def Config.rlMaxBytes : Nat := 4

/-- RL_MAX_VALUE = 128^4 - 1 (R5). -/
def Config.rlMaxValue : Nat := 268435455

/-- RL_DIGIT_BASE (R5). -/
def Config.rlDigitBase : Nat := 128

/-- PROTOCOL_NAME_PREFIX: 0x00 0x04 'M' 'Q' 'T' 'T' (R5).
PRESUMED: the character codes are ASCII (R11, log entry 9). -/
def Config.protocolNamePrefix : List Byte := [0x00, 0x04, 0x4D, 0x51, 0x54, 0x54]

/-- PROTOCOL_LEVEL: only MQTT 3.1.1 (R2, R5). -/
def Config.protocolLevel : Byte := 4

/-- CVH_LEN: bytes of a CONNECT Variable Header (R5, R87). -/
def Config.cvhLen : Nat := 10

/-- CAVH_LEN: bytes of a CONNACK Variable Header (R5, R89). -/
def Config.cavhLen : Nat := 2

/-- PT_CONNECT (R5). -/
def Config.ptConnect : BitVec 4 := 1

/-- PT_CONNACK (R5). -/
def Config.ptConnack : BitVec 4 := 2

/-! ## Implementation parameters (R6) -/

/-- CF_DECODE_RESTRICTED: true for this hardware, fixed at build time (R6, R272).
The three commands that read it are written over an argument, so that both values are modelled;
the machine runs them at this value (log entry 8). -/
def Config.cfDecodeRestricted : Bool := true

/-- MAX_BUF_LEN: OPEN; `none` is "unbounded" (R6, R53; log entry 6). -/
opaque Config.maxBufLen : Option Nat

/-- How many instances there are beside the first: OPEN (R6; log entry 7). -/
opaque Config.furtherInstances : Nat

/-- N_INSTANCES: any number, at least 1 (R6, R253). -/
def Config.nInstances : Nat := Config.furtherInstances + 1

/-- A buffer of `n` bytes is within the bound: `0 <= IN_LEN <= MAX_BUF_LEN` (R23, R53). -/
def Config.fits (bound : Option Nat) (n : Nat) : Bool :=
  match bound with
  | none => true
  | some m => decide (n ≤ m)

end Sys2Proof
end

