-- ==== Sys2Proof/Machine/State.lean ====
section
/-! DEFINITION. The state of one instance of the block: the request ports the host drives (R23), the
STATUS register (R25) and the result ports (R24), as plain data; its fault and refusal reasons; and
the state right after reset (R32). -/

namespace Sys2Proof.Machine

/-! ## Memory: the two byte-addressed spaces IN and OUT (R50) -/

/-- One byte-addressed space: (index, byte) cells with strictly rising indices. An index that is not
listed holds no byte, so that reading it never answers a made-up value (log entry 4). -/
abbrev Memory := List Host.Cell

/-- The canonical form: indices strictly rising. (No listed byte equals what an unlisted index reads
as, since that is no byte at all.) -/
abbrev Memory.wf (m : Memory) : Prop := m.Pairwise (fun c d => c.1 < d.1)

/-! ## Names of ports, classes and reasons -/

/-- The result ports of R24. -/
inductive RPort where
  | out | outLen | bit | byte | value | consumed | ptype | dup | qos | retain | rlen
  | clean | will | wqos | wretain | password | username | pname | plevel | keepalive | vh | remOff
  deriving DecidableEq, Repr

/-- The scalar request ports of R23 (all but CMD, IN and IN_LEN). -/
inductive APort where
  | byte | bitIdx | bitVal | value | ptype | dup | qos | retain
  | clean | will | wqos | wretain | password | username | keepalive | sp | rc
  deriving DecidableEq, Repr

/-- STATUS.CLASS (R26). Code 6 is reserved and never written, so it has no name here. -/
inductive OutcomeClass where
  | ok | structural | protocolViolation | unsupportedFeature | contractViolation | illegalCommand | idle
  deriving DecidableEq, Repr

/-- The sixteen reasons a command can fail for (R232). -/
inductive Reason where
  | shortBuffer | rlTooLong
  | wrongPacketType | badProtocolName | unsupportedProtocolLevel | reservedFlagBit | reservedQos
  | cleanSessionUnset | willFlagSet | willQosNonzero | willRetainSet | passwordFlagSet | usernameFlagSet
  | valueOutOfRange | invalidQosOperand
  | undefinedOpcode
  deriving DecidableEq, Repr

/-- R_PNAME: four bytes, the first on the wire first (R24). -/
structure Name4 where
  b0 : Byte
  b1 : Byte
  b2 : Byte
  b3 : Byte
  deriving DecidableEq, Repr

/-! ## The request: ports the host writes and the block only reads (R23) -/

/-- The request ports of R23, each with its exact width; a 1-bit port is a Bool (R8). -/
structure Request where
  /-- CMD, 8 bits: the command code. -/
  cmd : Byte
  /-- IN: the input byte sequence, as cells at indices 0 to IN_LEN - 1 (R51). -/
  inp : Memory
  /-- IN_LEN: the number of valid bytes in IN. -/
  inLen : Nat
  /-- A_BYTE, 8 bits. -/
  aByte : Byte
  /-- A_BITIDX, 3 bits. -/
  aBitIdx : BitVec 3
  /-- A_BITVAL, 1 bit. -/
  aBitVal : Bool
  /-- A_VALUE, 32 bits: wide enough to present a value above RL_MAX_VALUE. -/
  aValue : BitVec 32
  /-- A_PTYPE, 4 bits. -/
  aPtype : BitVec 4
  /-- A_DUP, 1 bit. -/
  aDup : Bool
  /-- A_QOS, 2 bits: can carry 3, which is not a QoS. -/
  aQos : BitVec 2
  /-- A_RETAIN, 1 bit. -/
  aRetain : Bool
  /-- A_CLEAN, 1 bit. -/
  aClean : Bool
  /-- A_WILL, 1 bit. -/
  aWill : Bool
  /-- A_WQOS, 2 bits: can carry 3, which is not a QoS. -/
  aWqos : BitVec 2
  /-- A_WRETAIN, 1 bit. -/
  aWretain : Bool
  /-- A_PASSWORD, 1 bit. -/
  aPassword : Bool
  /-- A_USERNAME, 1 bit. -/
  aUsername : Bool
  /-- A_KEEPALIVE, 16 bits. -/
  aKeepalive : BitVec 16
  /-- A_SP, 1 bit. -/
  aSp : Bool
  /-- A_RC, 8 bits. -/
  aRc : Byte
  deriving DecidableEq, Repr

/-! ## The result ports (R24) -/

/-- The result ports of R24. `none` is the spec's own "holds no value" (R27, R32), not a missing
reset value. OUT holds no value exactly when OUT_LEN holds none. -/
structure Results where
  /-- OUT: the output byte sequence, as cells at indices 0 to OUT_LEN - 1 (R52). -/
  out : Memory
  /-- OUT_LEN. -/
  outLen : Option Nat
  /-- R_BIT, 1 bit. -/
  rBit : Option Bool
  /-- R_BYTE, 8 bits. -/
  rByte : Option Byte
  /-- R_VALUE, 28 bits. -/
  rValue : Option (BitVec 28)
  /-- R_CONSUMED, 3 bits. -/
  rConsumed : Option (BitVec 3)
  /-- R_PTYPE, 4 bits. -/
  rPtype : Option (BitVec 4)
  /-- R_DUP, 1 bit. -/
  rDup : Option Bool
  /-- R_QOS, 2 bits. -/
  rQos : Option (BitVec 2)
  /-- R_RETAIN, 1 bit. -/
  rRetain : Option Bool
  /-- R_RLEN, 28 bits. -/
  rRlen : Option (BitVec 28)
  /-- R_CLEAN, 1 bit. -/
  rClean : Option Bool
  /-- R_WILL, 1 bit. -/
  rWill : Option Bool
  /-- R_WQOS, 2 bits. -/
  rWqos : Option (BitVec 2)
  /-- R_WRETAIN, 1 bit. -/
  rWretain : Option Bool
  /-- R_PASSWORD, 1 bit. -/
  rPassword : Option Bool
  /-- R_USERNAME, 1 bit. -/
  rUsername : Option Bool
  /-- R_PNAME, 4 bytes. -/
  rPname : Option Name4
  /-- R_PLEVEL, 8 bits. -/
  rPlevel : Option Byte
  /-- R_KEEPALIVE, 16 bits. -/
  rKeepalive : Option (BitVec 16)
  /-- R_VH, 1 bit. -/
  rVh : Option Bool
  /-- R_REM_OFF: the index in IN of the first unconsumed byte. -/
  rRemOff : Option Nat
  deriving DecidableEq, Repr

/-- No result port, no OUT byte and no OUT_LEN holds a value (R27, R32). -/
def Results.empty : Results where
  out := []
  outLen := none
  rBit := none
  rByte := none
  rValue := none
  rConsumed := none
  rPtype := none
  rDup := none
  rQos := none
  rRetain := none
  rRlen := none
  rClean := none
  rWill := none
  rWqos := none
  rWretain := none
  rPassword := none
  rUsername := none
  rPname := none
  rPlevel := none
  rKeepalive := none
  rVh := none
  rRemOff := none

/-! ## The state of one instance -/

/-- One instance between two commands: the request ports as the host drives them, and the response
of the last command. There is no program counter and no register file (R21, R22), and nothing inside
a command survives it (R20, R30). -/
structure State where
  /-- The request ports (R23). -/
  req : Request
  /-- STATUS, 16 bits: CLASS in [2:0], zeros in [7:3], REASON in [15:8] (R25). -/
  status : BitVec 16
  /-- The result ports (R24). -/
  res : Results
  deriving DecidableEq, Repr

/-- Why the model stops. Neither reason is an error of the block: the block's own errors are STATUS
values (R231). -/
inductive Fault where
  /-- Raised by a command that reads IN, when IN lacks one of its IN_LEN bytes: the host presented a
  request the interface does not have (R51). Safe (log entry 4). -/
  | inputByteAbsent
  /-- Raised by a host action that reads a result port holding no value (R27, R74). Safe. -/
  | portHoldsNoValue (p : RPort)
  deriving DecidableEq, Repr

/-- Why the model gives no meaning. Only host actions are refused; no command is. -/
inductive Refusal where
  /-- A row of the opcode table with no meaning yet; no arm of `exec` answers this. Safe. -/
  | notModelled (mnemonic : String)
  /-- Raised by a host statement whose value does not fit the port it sets (R23, R74). Safe. -/
  | valueTooWide (p : APort)
  /-- Raised by a host copy from a port that holds bytes to a scalar port (R74). Safe. -/
  | notANumber (p : RPort)
  /-- Raised when the host presents more than MAX_BUF_LEN bytes (R23, R53). Safe. -/
  | bufferTooLong
  /-- Raised by a host branch to a label the program does not have (R74). Safe. -/
  | noSuchLabel
  /-- Raised by an interaction with an instance that does not exist (R253). Safe. -/
  | noSuchInstance
  deriving DecidableEq, Repr

/-! ## Reset (R32, R270) -/

/-- The request ports before the host has driven any. The block assigns them nothing at reset (R32),
so these values are the model's DESIGN CHOICE: zero, and an empty IN (log entry 2). -/
def Request.initial : Request where
  cmd := 0
  inp := []
  inLen := 0
  aByte := 0
  aBitIdx := 0
  aBitVal := false
  aValue := 0
  aPtype := 0
  aDup := false
  aQos := 0
  aRetain := false
  aClean := false
  aWill := false
  aWqos := 0
  aWretain := false
  aPassword := false
  aUsername := false
  aKeepalive := 0
  aSp := false
  aRc := 0

/-- The instance right after reset: STATUS = 0x0007 (IDLE), and no result port holds a value
(R32, R270). -/
def State.reset : State where
  req := Request.initial
  status := 0x0007
  res := Results.empty

end Sys2Proof.Machine
end

