-- ==== Sys2Proof/Machine/Flags.lean ====
section
/-! DEFINITION. The STATUS register: its fields, the class and reason codes, and the word a command
leaves in it (R25, R26, R230, R232). The block has no other flag (R29). -/

namespace Sys2Proof.Machine

/-- The numeric CLASS codes (R26). -/
def OutcomeClass.code : OutcomeClass → BitVec 3
  | .ok => 0
  | .structural => 1
  | .protocolViolation => 2
  | .unsupportedFeature => 3
  | .contractViolation => 4
  | .illegalCommand => 5
  | .idle => 7

/-- The class each reason belongs to (R232). -/
def Reason.cls : Reason → OutcomeClass
  | .shortBuffer => .structural
  | .rlTooLong => .structural
  | .wrongPacketType => .protocolViolation
  | .badProtocolName => .protocolViolation
  | .unsupportedProtocolLevel => .protocolViolation
  | .reservedFlagBit => .protocolViolation
  | .reservedQos => .protocolViolation
  | .cleanSessionUnset => .unsupportedFeature
  | .willFlagSet => .unsupportedFeature
  | .willQosNonzero => .unsupportedFeature
  | .willRetainSet => .unsupportedFeature
  | .passwordFlagSet => .unsupportedFeature
  | .usernameFlagSet => .unsupportedFeature
  | .valueOutOfRange => .contractViolation
  | .invalidQosOperand => .contractViolation
  | .undefinedOpcode => .illegalCommand

/-- The numeric REASON codes (R232). -/
def Reason.code : Reason → Byte
  | .shortBuffer => 0x01
  | .rlTooLong => 0x02
  | .wrongPacketType => 0x10
  | .badProtocolName => 0x11
  | .unsupportedProtocolLevel => 0x12
  | .reservedFlagBit => 0x13
  | .reservedQos => 0x14
  | .cleanSessionUnset => 0x20
  | .willFlagSet => 0x21
  | .willQosNonzero => 0x22
  | .willRetainSet => 0x23
  | .passwordFlagSet => 0x24
  | .usernameFlagSet => 0x25
  | .valueOutOfRange => 0x30
  | .invalidQosOperand => 0x31
  | .undefinedOpcode => 0x40

/-- REASON in [15:8], zeros in the reserved bits [7:3], CLASS in [2:0] (R25). -/
def statusWord (c : OutcomeClass) (reason : Byte) : BitVec 16 := reason ++ (0#5) ++ c.code

/-- STATUS after a command that returned a value: CLASS = OK, REASON = 0x00 (R25, R26). -/
def statusOk : BitVec 16 := statusWord .ok 0

/-- STATUS after `raise Class(REASON)` (R231). -/
def statusOf (e : Reason) : BitVec 16 := statusWord e.cls e.code

/-- STATUS after reset: CLASS = IDLE, REASON = 0x00 (R32). -/
def statusIdle : BitVec 16 := statusWord .idle 0

/-- STATUS.CLASS, bits [2:0] (R25). -/
def statusClass (w : BitVec 16) : BitVec 3 := w.extractLsb' 0 3

/-- The reserved bits [7:3] of STATUS (R25). -/
def statusReserved (w : BitVec 16) : BitVec 5 := w.extractLsb' 3 5

/-- STATUS.REASON, bits [15:8] (R25). -/
def statusReason (w : BitVec 16) : Byte := w.extractLsb' 8 8

/-- Every reason of R232. -/
def Reason.all : List Reason :=
  [.shortBuffer, .rlTooLong, .wrongPacketType, .badProtocolName, .unsupportedProtocolLevel,
    .reservedFlagBit, .reservedQos, .cleanSessionUnset, .willFlagSet, .willQosNonzero, .willRetainSet,
    .passwordFlagSet, .usernameFlagSet, .valueOutOfRange, .invalidQosOperand, .undefinedOpcode]

/-- The reasons a restricted decode of a Connect Flags byte adds (R233: 0x20 to 0x25). -/
def restrictedReasons : List Reason :=
  [.cleanSessionUnset, .willFlagSet, .willQosNonzero, .willRetainSet, .passwordFlagSet, .usernameFlagSet]

end Sys2Proof.Machine
end

