-- ==== Sys2Proof/Machine/Operands.lean ====
section
/-! DEFINITION. The bit fields of bytes (R7, R92), the QoS operand test (R82), the packet-type names
(R81), and the ports as the host names them (R23, R24, R74). -/

namespace Sys2Proof.Machine

/-! ## Bits and fields of a byte (R7) -/

/-- `v[i]` (R7). -/
def bitAt (v : Byte) (i : Nat) : Bool := v.getLsbD i

/-- `v[lo + w - 1 : lo]` as a number of `w` bits (R7). -/
def field (v : Byte) (lo w : Nat) : BitVec w := v.extractLsb' lo w

/-- A 1-bit value as a byte: true is 1 and false is 0 (R8). -/
def bitByte (b : Bool) : Byte := if b then 1 else 0

/-- `zext_8` of a narrower field (R8). -/
def zext8 {w : Nat} (v : BitVec w) : Byte := v.setWidth 8

/-- Code 3 is no QoS (R82). -/
def isReservedQos (q : BitVec 2) : Bool := q == 3

/-! ## Packet types (R81) -/

/-- The defined packet types. PRESUMED: the names of codes 3 to 13 are general knowledge, and no
rule depends on them (R81, log entry 10). -/
inductive PacketName where
  | connect | connack | publish | puback | pubrec | pubrel | pubcomp
  | subscribe | suback | unsubscribe | unsuback | pingreq | pingresp | disconnect
  deriving DecidableEq, Repr

/-- The name of a packet-type code; 0 and 15 are reserved and have none (R81). -/
def packetName (t : BitVec 4) : Option PacketName :=
  match t.toNat with
  | 1 => some .connect
  | 2 => some .connack
  | 3 => some .publish
  | 4 => some .puback
  | 5 => some .pubrec
  | 6 => some .pubrel
  | 7 => some .pubcomp
  | 8 => some .subscribe
  | 9 => some .suback
  | 10 => some .unsubscribe
  | 11 => some .unsuback
  | 12 => some .pingreq
  | 13 => some .pingresp
  | 14 => some .disconnect
  | _ => none

/-! ## Request ports as the host writes them (R23, R74) -/

/-- The width of a scalar request port (R23). -/
def APort.width : APort → Nat
  | .byte => 8
  | .bitIdx => 3
  | .bitVal => 1
  | .value => 32
  | .ptype => 4
  | .dup => 1
  | .qos => 2
  | .retain => 1
  | .clean => 1
  | .will => 1
  | .wqos => 2
  | .wretain => 1
  | .password => 1
  | .username => 1
  | .keepalive => 16
  | .sp => 1
  | .rc => 8

/-- The request with one scalar port driven to `v`, for a `v` that fits the port. -/
def APort.set (p : APort) (v : Nat) (q : Request) : Request :=
  match p with
  | .byte => { q with aByte := BitVec.ofNat 8 v }
  | .bitIdx => { q with aBitIdx := BitVec.ofNat 3 v }
  | .bitVal => { q with aBitVal := v == 1 }
  | .value => { q with aValue := BitVec.ofNat 32 v }
  | .ptype => { q with aPtype := BitVec.ofNat 4 v }
  | .dup => { q with aDup := v == 1 }
  | .qos => { q with aQos := BitVec.ofNat 2 v }
  | .retain => { q with aRetain := v == 1 }
  | .clean => { q with aClean := v == 1 }
  | .will => { q with aWill := v == 1 }
  | .wqos => { q with aWqos := BitVec.ofNat 2 v }
  | .wretain => { q with aWretain := v == 1 }
  | .password => { q with aPassword := v == 1 }
  | .username => { q with aUsername := v == 1 }
  | .keepalive => { q with aKeepalive := BitVec.ofNat 16 v }
  | .sp => { q with aSp := v == 1 }
  | .rc => { q with aRc := BitVec.ofNat 8 v }

/-- What a scalar request port holds, as a number (R23). -/
def APort.get (p : APort) (q : Request) : Nat :=
  match p with
  | .byte => q.aByte.toNat
  | .bitIdx => q.aBitIdx.toNat
  | .bitVal => q.aBitVal.toNat
  | .value => q.aValue.toNat
  | .ptype => q.aPtype.toNat
  | .dup => q.aDup.toNat
  | .qos => q.aQos.toNat
  | .retain => q.aRetain.toNat
  | .clean => q.aClean.toNat
  | .will => q.aWill.toNat
  | .wqos => q.aWqos.toNat
  | .wretain => q.aWretain.toNat
  | .password => q.aPassword.toNat
  | .username => q.aUsername.toNat
  | .keepalive => q.aKeepalive.toNat
  | .sp => q.aSp.toNat
  | .rc => q.aRc.toNat

end Sys2Proof.Machine
end

