-- ==== Sys2Proof/Machine/Ops.lean ====
section
/-! DEFINITION. The shared operations: byte reads and writes of IN and OUT, the snapshot of IN, `emit`,
ending a command with a result (`return`) and ending it with an error (`raise`), the CMD fetch, reset
of a running instance, and the host's read of a result port. -/

namespace Sys2Proof.Machine

/-! ## Bytes of a space (R50 to R55) -/

/-- The byte at index `i`, if the space holds one (MemRead, R10). -/
def Memory.read : Memory → Nat → Option Byte
  | [], _ => none
  | (a, b) :: m, i => if a = i then some b else Memory.read m i

/-- Write byte `v` at index `i` (MemWrite, R10), keeping the cells in index order. -/
def Memory.write : Memory → Nat → Byte → Memory
  | [], i, v => [(i, v)]
  | (a, b) :: m, i, v =>
    if i < a then (i, v) :: (a, b) :: m
    else if i = a then (i, v) :: m
    else (a, b) :: Memory.write m i v

/-- The space that holds the sequence `bs` from index `k` on. -/
def Memory.ofBytesFrom : Nat → List Byte → Memory
  | _, [] => []
  | k, b :: bs => (k, b) :: Memory.ofBytesFrom (k + 1) bs

/-- The space that holds the sequence `bs`, index 0 first on the wire (R9, R51). -/
def Memory.ofBytes (bs : List Byte) : Memory := Memory.ofBytesFrom 0 bs

/-- The `k` bytes from index `i` on, if the space holds all of them. -/
def Memory.readFrom (m : Memory) : Nat → Nat → Option (List Byte)
  | _, 0 => some []
  | i, k + 1 =>
    match Memory.read m i with
    | none => none
    | some b =>
      match Memory.readFrom m (i + 1) k with
      | none => none
      | some bs => some (b :: bs)

/-- The bytes at indices 0 to `n - 1`, if the space holds all of them. -/
def Memory.window (m : Memory) (n : Nat) : Option (List Byte) := Memory.readFrom m 0 n

/-! ## Reading IN -/

/-- The snapshot of IN that a command takes when it is issued (R56): its IN_LEN bytes (R51). -/
def snapshotIn (q : Request) : Option (List Byte) := Memory.window q.inp q.inLen

/-! ## Writing OUT -/

/-- The results of an emitting command at its start: OUT is empty and OUT_LEN = 0 (R52). -/
def openOut : Results := { Results.empty with outLen := some 0 }

/-- `emit(b)`: write b at index OUT_LEN and count it (R10). -/
def emit (r : Results) (b : Byte) : Results :=
  { r with
    out := Memory.write r.out (r.outLen.getD 0) b
    outLen := some (r.outLen.getD 0 + 1) }

/-- Emit a sequence in order, from an empty OUT. -/
def emitAll (bs : List Byte) : Results := bs.foldl emit openOut

/-! ## Ending a command -/

/-- `return`: STATUS.CLASS = OK, and the ports the rule wrote are valid, together and no others
(R10, R24, R27, R56). -/
def complete (r : Results) (s : State) : State := { s with status := statusOk, res := r }

/-- `raise Class(REASON)`: the error entry of every command. STATUS takes the class and the reason, no
result port holds a value, and nothing else changes (R231, R237). There is no return from an error
(R238): the next command starts with no memory of it. -/
def raiseError (e : Reason) (s : State) : State := { s with status := statusOf e, res := Results.empty }

/-- End a command with what its rule computed; an error of a called function ends it unchanged (R240). -/
def respond (r : Except Reason Results) (s : State) : State :=
  match r with
  | .ok v => complete v s
  | .error e => raiseError e s

/-- Run a command that reads IN over the snapshot of IN taken at issue (R51, R56). A request whose IN
lacks one of its IN_LEN bytes is not of the interface, and stops the model (log entry 4). -/
def withInput (f : List Byte → Except Reason Results) (s : State) :
    Host.Outcome State Fault Refusal :=
  match snapshotIn s.req with
  | none => .fault .inputByteAbsent
  | some bytes => .next (respond (f bytes) s)

/-- Run a command that does not read IN. -/
def withoutInput (r : Except Reason Results) (s : State) : Host.Outcome State Fault Refusal :=
  .next (respond r s)

/-- An illegal CMD reads no other port and raises IllegalCommand(UNDEFINED_OPCODE) (R76, R241). -/
def illegalCommand (s : State) : Host.Outcome State Fault Refusal :=
  .next (raiseError .undefinedOpcode s)

/-! ## The command port and reset -/

/-- The command a transaction runs: what the CMD port holds (R21, R70). Nothing is fetched (R61). -/
def fetchCmd (s : State) : Byte := s.req.cmd

/-- The request with the CMD port driven to `c`. -/
def Request.withCmd (q : Request) (c : Byte) : Request := { q with cmd := c }

/-- Reset of an instance at any time: STATUS = 0x0007, no result port holds a value, and the request
ports, IN among them, are the host's and stay (R32, R270, R271). -/
def resetInstance (s : State) : State := { s with status := statusIdle, res := Results.empty }

/-! ## Reading a result port (R24, R27) -/

/-- What a result port can hold: a number, or a byte sequence (OUT and R_PNAME). -/
inductive PortValue where
  | num (n : Nat)
  | bytes (bs : List Byte)
  deriving DecidableEq, Repr

/-- The four bytes of R_PNAME in wire order (R24). -/
def Name4.toBytes (n : Name4) : List Byte := [n.b0, n.b1, n.b2, n.b3]

/-- What a result port holds, if it holds a value (R27). -/
def RPort.value? (p : RPort) (r : Results) : Option PortValue :=
  match p with
  | .out => r.outLen.bind fun n => (Memory.window r.out n).map .bytes
  | .outLen => r.outLen.map .num
  | .bit => r.rBit.map fun b => .num b.toNat
  | .byte => r.rByte.map fun b => .num b.toNat
  | .value => r.rValue.map fun b => .num b.toNat
  | .consumed => r.rConsumed.map fun b => .num b.toNat
  | .ptype => r.rPtype.map fun b => .num b.toNat
  | .dup => r.rDup.map fun b => .num b.toNat
  | .qos => r.rQos.map fun b => .num b.toNat
  | .retain => r.rRetain.map fun b => .num b.toNat
  | .rlen => r.rRlen.map fun b => .num b.toNat
  | .clean => r.rClean.map fun b => .num b.toNat
  | .will => r.rWill.map fun b => .num b.toNat
  | .wqos => r.rWqos.map fun b => .num b.toNat
  | .wretain => r.rWretain.map fun b => .num b.toNat
  | .password => r.rPassword.map fun b => .num b.toNat
  | .username => r.rUsername.map fun b => .num b.toNat
  | .pname => r.rPname.map fun n => .bytes n.toBytes
  | .plevel => r.rPlevel.map fun b => .num b.toNat
  | .keepalive => r.rKeepalive.map fun b => .num b.toNat
  | .vh => r.rVh.map fun b => .num b.toNat
  | .remOff => r.rRemOff.map .num

/-- The host's read of a result port: a port that holds no value is a fault, never zero and never a
stale value (R27). -/
def readResult (p : RPort) (s : State) : Except Fault PortValue :=
  match p.value? s.res with
  | some v => .ok v
  | none => .error (.portHoldsNoValue p)

end Sys2Proof.Machine
end

