-- ==== Sys2Proof/Machine/BitOps.lean ====
section
/-! DEFINITION. The BitOps family: BIT.GET and BIT.SET (R110 to R112). -/

namespace Sys2Proof.Machine

/-- BitGet: one bit of a byte (R110). -/
def bitGet (v : Byte) (i : BitVec 3) : Bool := bitAt v i.toNat

/-- BitSet: the byte with one bit replaced (R111). -/
def bitSet (v : Byte) (i : BitVec 3) (b : Bool) : Byte :=
  (v &&& ~~~(1#8 <<< i.toNat)) ||| (bitByte b <<< i.toNat)

/-- BIT.GET (R110). -/
def execBitGet (s : State) : Host.Outcome State Fault Refusal :=
  withoutInput (.ok { Results.empty with rBit := some (bitGet s.req.aByte s.req.aBitIdx) }) s

/-- BIT.SET (R111). -/
def execBitSet (s : State) : Host.Outcome State Fault Refusal :=
  withoutInput
    (.ok { Results.empty with rByte := some (bitSet s.req.aByte s.req.aBitIdx s.req.aBitVal) }) s

end Sys2Proof.Machine
end

