-- ==== Sys2Proof/Machine/ConnackVh.lean ====
section
/-! DEFINITION. The CONNACK Variable Header family: CAVH.ENC (R89, R200), and the reserved code 0x60,
which is illegal (R78). -/

namespace Sys2Proof.Machine

/-- The two bytes of a CONNACK Variable Header (R89, R200). -/
def cavhBytes (sp : Bool) (rc : Byte) : List Byte := [bitByte sp, rc]

/-- CAVH.ENC (R200). -/
def execCavhEnc (s : State) : Host.Outcome State Fault Refusal :=
  withoutInput (.ok (emitAll (cavhBytes s.req.aSp s.req.aRc))) s

/-- CMD 0x60 is no command of this hardware: it raises IllegalCommand(UNDEFINED_OPCODE) (R76, R78). -/
def execReservedCavhDec (s : State) : Host.Outcome State Fault Refusal := illegalCommand s

end Sys2Proof.Machine
end

