-- ==== Sys2Proof/Machine/ConnectFlags.lean ====
section
/-! DEFINITION. The Connect Flags family: CF.DEC and CF.ENC (R88, R160 to R164). The decoder and the
encoder are two separate paths: only the decoder validates (R163). -/

namespace Sys2Proof.Machine

/-- A ConnectFlags record (R160). -/
structure ConnectFlags where
  cleanSession : Bool
  willFlag : Bool
  willQos : BitVec 2
  willRetain : Bool
  passwordFlag : Bool
  userNameFlag : Bool
  deriving DecidableEq, Repr

/-- The fields of a Connect Flags byte (R88, R92). -/
def cfFields (f : Byte) : ConnectFlags where
  cleanSession := bitAt f 1
  willFlag := bitAt f 2
  willQos := field f 3 2
  willRetain := bitAt f 5
  passwordFlag := bitAt f 6
  userNameFlag := bitAt f 7

/-- The first field, in the order of the source's §4.3, that the restricted subset does not admit
(R160, conflict C4). -/
def cfFirstViolation (r : ConnectFlags) : Option Reason :=
  if !r.cleanSession then some .cleanSessionUnset
  else if r.willFlag then some .willFlagSet
  else if r.willQos ≠ 0 then some .willQosNonzero
  else if r.willRetain then some .willRetainSet
  else if r.passwordFlag then some .passwordFlagSet
  else if r.userNameFlag then some .usernameFlagSet
  else none

/-- CFDecode, with CF_DECODE_RESTRICTED as an argument (R6, R160). -/
def cfDecode (restricted : Bool) (f : Byte) : Except Reason ConnectFlags :=
  if bitAt f 0 then .error .reservedFlagBit
  else if isReservedQos (field f 3 2) then .error .reservedQos
  else if restricted then
    match cfFirstViolation (cfFields f) with
    | some e => .error e
    | none => .ok (cfFields f)
  else .ok (cfFields f)

/-- The flags byte; bit 0 is 0 (R92, R161). -/
def cfByte (r : ConnectFlags) : Byte :=
  (bitByte r.userNameFlag <<< 7) ||| (bitByte r.passwordFlag <<< 6) ||| (bitByte r.willRetain <<< 5)
    ||| (zext8 r.willQos <<< 3) ||| (bitByte r.willFlag <<< 2) ||| (bitByte r.cleanSession <<< 1)

/-- CFEncode: only a willQoS of 3 is rejected (R161). -/
def cfEncode (r : ConnectFlags) : Except Reason Byte :=
  if isReservedQos r.willQos then .error .invalidQosOperand else .ok (cfByte r)

/-- The ConnectFlags operand of an encoder (R161, R181). -/
def flagsOperand (q : Request) : ConnectFlags where
  cleanSession := q.aClean
  willFlag := q.aWill
  willQos := q.aWqos
  willRetain := q.aWretain
  passwordFlag := q.aPassword
  userNameFlag := q.aUsername

/-- The result ports that carry a ConnectFlags record (R160). -/
def withFlags (c : ConnectFlags) (r : Results) : Results :=
  { r with
    rClean := some c.cleanSession
    rWill := some c.willFlag
    rWqos := some c.willQos
    rWretain := some c.willRetain
    rPassword := some c.passwordFlag
    rUsername := some c.userNameFlag }

/-- What CF.DEC computes from A_BYTE (R160). -/
def cfDecResults (restricted : Bool) (q : Request) : Except Reason Results :=
  match cfDecode restricted q.aByte with
  | .error e => .error e
  | .ok c => .ok (withFlags c Results.empty)

/-- What CF.ENC computes from its ports (R161). -/
def cfEncResults (q : Request) : Except Reason Results :=
  match cfEncode (flagsOperand q) with
  | .error e => .error e
  | .ok b => .ok { Results.empty with rByte := some b }

/-- CF.DEC at a given CF_DECODE_RESTRICTED (R6, R160). -/
def cfDecCommand (restricted : Bool) (s : State) : Host.Outcome State Fault Refusal :=
  withoutInput (cfDecResults restricted s.req) s

/-- CF.DEC on this hardware (R6, R160). -/
def execCfDec (s : State) : Host.Outcome State Fault Refusal :=
  cfDecCommand Config.cfDecodeRestricted s

/-- CF.ENC (R161). -/
def execCfEnc (s : State) : Host.Outcome State Fault Refusal := withoutInput (cfEncResults s.req) s

end Sys2Proof.Machine
end

