-- ==== Sys2Proof/Machine/ConnectVh.lean ====
section
/-! DEFINITION. The CONNECT Variable Header family: CVH.DEC and CVH.ENC (R87, R180 to R183). -/

namespace Sys2Proof.Machine

/-- What a CONNECT Variable Header carries; the protocol name and level are fixed (R180). -/
structure ConnectHeader where
  connectFlags : ConnectFlags
  keepAlive : BitVec 16
  deriving DecidableEq, Repr

/-- R_PNAME on every success: 'M' 'Q' 'T' 'T' (R24, R180; PRESUMED ASCII codes, log entry 9). -/
def mqttName : Name4 := ⟨0x4D, 0x51, 0x54, 0x54⟩

/-- keepAlive from its high and its low byte, big-endian (R54, R180). -/
def keepAliveOf (hi lo : Byte) : BitVec 16 := BitVec.ofNat 16 (hi.toNat * 256 + lo.toNat)

/-- Steps 2 to 6 of CVHDecode, over the ten bytes of the header (R180). -/
def cvhDecodeBody (restricted : Bool) (name : List Byte) (level flags hi lo : Byte) :
    Except Reason ConnectHeader :=
  if name ≠ Config.protocolNamePrefix then .error .badProtocolName
  else if level ≠ Config.protocolLevel then .error .unsupportedProtocolLevel
  else
    match cfDecode restricted flags with
    | .error e => .error e
    | .ok c => .ok { connectFlags := c, keepAlive := keepAliveOf hi lo }

/-- CVHDecode: the header and the offset after it, always 10 (R180). The packet type is tested before
any byte is looked at, and the length before any byte is compared. -/
def cvhDecode (restricted : Bool) (pt : BitVec 4) (bytes : List Byte) :
    Except Reason (ConnectHeader × Nat) :=
  if pt ≠ Config.ptConnect then .error .wrongPacketType
  else
    match bytes with
    | b0 :: b1 :: b2 :: b3 :: b4 :: b5 :: level :: flags :: hi :: lo :: _ =>
      match cvhDecodeBody restricted [b0, b1, b2, b3, b4, b5] level flags hi lo with
      | .error e => .error e
      | .ok h => .ok (h, Config.cvhLen)
    | _ => .error .shortBuffer

/-- The bytes of a CONNECT Variable Header with flags byte `f` (R87, R181). -/
def cvhBytes (f : Byte) (ka : BitVec 16) : List Byte :=
  Config.protocolNamePrefix ++ [Config.protocolLevel, f, ka.extractLsb' 8 8, ka.extractLsb' 0 8]

/-- What CVH.ENC emits: the flags are encoded, and may fail, before any byte is emitted (R181). -/
def cvhEncode (c : ConnectFlags) (ka : BitVec 16) : Except Reason (List Byte) :=
  match cfEncode c with
  | .error e => .error e
  | .ok f => .ok (cvhBytes f ka)

/-- The result ports that carry a CONNECT Variable Header, but for R_REM_OFF (R180). -/
def withConnect (h : ConnectHeader) (r : Results) : Results :=
  withFlags h.connectFlags
    { r with
      rPname := some mqttName
      rPlevel := some Config.protocolLevel
      rKeepalive := some h.keepAlive }

/-- What CVH.DEC computes from A_PTYPE and the bytes of IN (R180). -/
def cvhDecResults (restricted : Bool) (q : Request) (bytes : List Byte) : Except Reason Results :=
  match cvhDecode restricted q.aPtype bytes with
  | .error e => .error e
  | .ok (h, off) => .ok { withConnect h Results.empty with rRemOff := some off }

/-- What CVH.ENC computes from its ports (R181). -/
def cvhEncResults (q : Request) : Except Reason Results :=
  match cvhEncode (flagsOperand q) q.aKeepalive with
  | .error e => .error e
  | .ok bs => .ok (emitAll bs)

/-- CVH.DEC at a given CF_DECODE_RESTRICTED (R6, R180). -/
def cvhDecCommand (restricted : Bool) (s : State) : Host.Outcome State Fault Refusal :=
  withInput (cvhDecResults restricted s.req) s

/-- CVH.DEC on this hardware (R6, R180). -/
def execCvhDec (s : State) : Host.Outcome State Fault Refusal :=
  cvhDecCommand Config.cfDecodeRestricted s

/-- CVH.ENC (R181). -/
def execCvhEnc (s : State) : Host.Outcome State Fault Refusal := withoutInput (cvhEncResults s.req) s

end Sys2Proof.Machine
end

