-- ==== Sys2Proof/Machine/RemainingLength.lean ====
section
/-! DEFINITION. The Remaining Length family: RL.DEC and RL.ENC (R83 to R86, R120 to R125). -/

namespace Sys2Proof.Machine

/-- The digit of a Remaining Length byte, bits [6:0] (R83). -/
def rlDigit (b : Byte) : Nat := (field b 0 7).toNat

/-- The continuation bit of a Remaining Length byte, bit [7] (R83). -/
def rlContinues (b : Byte) : Bool := bitAt b 7

/-- The loop of RLDecode with `left` bytes still allowed: accumulator, multiplier and byte count
(R120). The 4-byte limit is tested before the end of input. -/
def rlDecodeLoop : (left value mult n : Nat) → List Byte → Except Reason (Nat × Nat)
  | 0, _, _, _, _ => .error .rlTooLong
  | _ + 1, _, _, _, [] => .error .shortBuffer
  | left + 1, value, mult, n, b :: bs =>
    if rlContinues b then
      rlDecodeLoop left (value + rlDigit b * mult) (mult * Config.rlDigitBase) (n + 1) bs
    else .ok (value + rlDigit b * mult, n + 1)

/-- RLDecode: the value and the number of bytes consumed (R120). -/
def rlDecode (bytes : List Byte) : Except Reason (Nat × Nat) :=
  rlDecodeLoop Config.rlMaxBytes 0 1 0 bytes

/-- The loop of RLEncode, which runs at least once (R121). A value in range is used up within
RL_MAX_BYTES rounds (R123), so that many are allowed. -/
def rlEncodeLoop : (left v : Nat) → List Byte
  | 0, _ => []
  | left + 1, v =>
    if v / Config.rlDigitBase > 0 then
      (BitVec.ofNat 8 (v % Config.rlDigitBase) ||| 0x80#8) :: rlEncodeLoop left (v / Config.rlDigitBase)
    else [BitVec.ofNat 8 (v % Config.rlDigitBase)]

/-- RLEncode: the range check, then the digits, least significant first (R121). -/
def rlEncode (v : Nat) : Except Reason (List Byte) :=
  if v > Config.rlMaxValue then .error .valueOutOfRange
  else .ok (rlEncodeLoop Config.rlMaxBytes v)

/-- What RL.DEC computes from the bytes of IN (R120). -/
def rlDecResults (bytes : List Byte) : Except Reason Results :=
  match rlDecode bytes with
  | .error e => .error e
  | .ok (v, n) =>
    .ok { Results.empty with
      rValue := some (BitVec.ofNat 28 v)
      rConsumed := some (BitVec.ofNat 3 n)
      rRemOff := some n }

/-- What RL.ENC computes from A_VALUE (R121). -/
def rlEncResults (q : Request) : Except Reason Results :=
  match rlEncode q.aValue.toNat with
  | .error e => .error e
  | .ok bs => .ok (emitAll bs)

/-- RL.DEC (R120). -/
def execRlDec (s : State) : Host.Outcome State Fault Refusal := withInput rlDecResults s

/-- RL.ENC (R121). -/
def execRlEnc (s : State) : Host.Outcome State Fault Refusal := withoutInput (rlEncResults s.req) s

end Sys2Proof.Machine
end

