-- ==== Sys2Proof/Machine/FixedHeader.lean ====
section
/-! DEFINITION. The Fixed Header family: FH.DEC and FH.ENC (R80 to R82, R140 to R144). -/

namespace Sys2Proof.Machine

/-- A decoded Fixed Header (R140). -/
structure FixedHeader where
  packetType : BitVec 4
  dup : Bool
  qos : BitVec 2
  retain : Bool
  remainingLength : Nat
  deriving DecidableEq, Repr

/-- FHDecode: the header and the offset after it (R140). The QoS code of byte 0 is tested before the
Remaining Length field is read; no packet type is rejected (R143), and remainingLength is not compared
with the bytes present (R144). -/
def fhDecode (bytes : List Byte) : Except Reason (FixedHeader × Nat) :=
  match bytes with
  | b0 :: b1 :: rest =>
    if isReservedQos (field b0 1 2) then .error .reservedQos
    else
      match rlDecode (b1 :: rest) with
      | .error e => .error e
      | .ok (rl, n) =>
        .ok
          ({ packetType := field b0 4 4
             dup := bitAt b0 3
             qos := field b0 1 2
             retain := bitAt b0 0
             remainingLength := rl }, 1 + n)
  | _ => .error .shortBuffer

/-- Byte 0 of a Fixed Header (R80, R92). -/
def fhByte0 (pt : BitVec 4) (dup : Bool) (qos : BitVec 2) (retain : Bool) : Byte :=
  (zext8 pt <<< 4) ||| (bitByte dup <<< 3) ||| (zext8 qos <<< 1) ||| bitByte retain

/-- FHEncode: the QoS test, then the range check of RLEncode (R141). -/
def fhEncode (pt : BitVec 4) (dup : Bool) (qos : BitVec 2) (retain : Bool) (rlen : Nat) :
    Except Reason (List Byte) :=
  if isReservedQos qos then .error .invalidQosOperand
  else
    match rlEncode rlen with
    | .error e => .error e
    | .ok bs => .ok (fhByte0 pt dup qos retain :: bs)

/-- The result ports that carry a Fixed Header (R140). -/
def withHeader (h : FixedHeader) (r : Results) : Results :=
  { r with
    rPtype := some h.packetType
    rDup := some h.dup
    rQos := some h.qos
    rRetain := some h.retain
    rRlen := some (BitVec.ofNat 28 h.remainingLength) }

/-- What FH.DEC computes from the bytes of IN (R140). -/
def fhDecResults (bytes : List Byte) : Except Reason Results :=
  match fhDecode bytes with
  | .error e => .error e
  | .ok (h, off) => .ok { withHeader h Results.empty with rRemOff := some off }

/-- What FH.ENC computes from its ports (R141). -/
def fhEncResults (q : Request) : Except Reason Results :=
  match fhEncode q.aPtype q.aDup q.aQos q.aRetain q.aValue.toNat with
  | .error e => .error e
  | .ok bs => .ok (emitAll bs)

/-- FH.DEC (R140). -/
def execFhDec (s : State) : Host.Outcome State Fault Refusal := withInput fhDecResults s

/-- FH.ENC (R141). -/
def execFhEnc (s : State) : Host.Outcome State Fault Refusal := withoutInput (fhEncResults s.req) s

end Sys2Proof.Machine
end

