-- ==== Sys2Proof/Machine/Frame.lean ====
section
/-! DEFINITION. The Frame family: the two-stage decode pipeline FRAME.DEC and the frame serializer
FRAME.ENC (R90, R210 to R213). -/

namespace Sys2Proof.Machine

/-- What FRAME.DEC computes from the bytes of IN: Stage 1 decodes the Fixed Header; Stage 2 runs for
packetType 1 alone (R212), over all of IN after the Fixed Header (R144). An error of either stage
ends the command, and discards Stage 1 (R210). -/
def frameDecResults (restricted : Bool) (bytes : List Byte) : Except Reason Results :=
  match fhDecode bytes with
  | .error e => .error e
  | .ok (h, off) =>
    if h.packetType = Config.ptConnect then
      match cvhDecode restricted h.packetType (bytes.drop off) with
      | .error e => .error e
      | .ok (v, off2) =>
        .ok { withConnect v (withHeader h Results.empty) with
          rVh := some true
          rRemOff := some (off + off2) }
    else
      .ok { withHeader h Results.empty with
        rVh := some false
        rRemOff := some off }

/-- What FRAME.ENC computes: the Fixed Header with Remaining Length IN_LEN, then the body unchanged
(R211). -/
def frameEncResults (q : Request) (body : List Byte) : Except Reason Results :=
  match fhEncode q.aPtype q.aDup q.aQos q.aRetain body.length with
  | .error e => .error e
  | .ok h => .ok (emitAll (h ++ body))

/-- FRAME.DEC at a given CF_DECODE_RESTRICTED (R6, R210). -/
def frameDecCommand (restricted : Bool) (s : State) : Host.Outcome State Fault Refusal :=
  withInput (frameDecResults restricted) s

/-- FRAME.DEC on this hardware (R6, R210). -/
def execFrameDec (s : State) : Host.Outcome State Fault Refusal :=
  frameDecCommand Config.cfDecodeRestricted s

/-- FRAME.ENC (R211). -/
def execFrameEnc (s : State) : Host.Outcome State Fault Refusal :=
  withInput (frameEncResults s.req) s

end Sys2Proof.Machine
end

