-- ==== Sys2Proof/Machine/Dispatch.lean ====
section
/-! DEFINITION. One meaning per command: the dispatch over Instr (R71). -/

namespace Sys2Proof.Machine

/-- The effect of one command on an instance. -/
def exec (i : Instr) (s : State) : Host.Outcome State Fault Refusal :=
  match i with
  -- BitOps
  | .bitGet => Sys2Proof.Machine.execBitGet s
  | .bitSet => Sys2Proof.Machine.execBitSet s
  -- Remaining Length
  | .rlDec => Sys2Proof.Machine.execRlDec s
  | .rlEnc => Sys2Proof.Machine.execRlEnc s
  -- Fixed Header
  | .fhDec => Sys2Proof.Machine.execFhDec s
  | .fhEnc => Sys2Proof.Machine.execFhEnc s
  -- Connect Flags
  | .cfDec => Sys2Proof.Machine.execCfDec s
  | .cfEnc => Sys2Proof.Machine.execCfEnc s
  -- CONNECT Variable Header
  | .cvhDec => Sys2Proof.Machine.execCvhDec s
  | .cvhEnc => Sys2Proof.Machine.execCvhEnc s
  -- CONNACK Variable Header
  | .cavhEnc => Sys2Proof.Machine.execCavhEnc s
  -- Frame
  | .frameDec => Sys2Proof.Machine.execFrameDec s
  | .frameEnc => Sys2Proof.Machine.execFrameEnc s
  -- the reserved code 0x60
  | .reservedCavhDec => Sys2Proof.Machine.execReservedCavhDec s

end Sys2Proof.Machine
end

