-- ==== Sys2Proof/Machine/Step.lean ====
section
/-! DEFINITION. One step of the machine: one transaction, from the request the ports hold to its
response (R21, R33, R56). -/

namespace Sys2Proof.Machine

/-- The host issues the command that CMD holds: the row it decodes to is run, and a CMD that is no row
of the table raises IllegalCommand(UNDEFINED_OPCODE) (R76, R241). -/
def step (s : State) : Host.Outcome State Fault Refusal :=
  match decodeCmd (fetchCmd s) with
  | .ok i => exec i s
  | .error _ => illegalCommand s

/-- The state with the table word `w` on the CMD port, which is where a transaction takes its command
from (R21, R70). Every other port, IN among them, stays as it is (log entry 1). -/
def State.withFetchWord (s : State) (nbits w : Nat) : State :=
  { s with req := s.req.withCmd (BitVec.ofNat 8 (w % 2 ^ nbits)) }

end Sys2Proof.Machine
end

