-- ==== Sys2Proof/Machine/HostSide.lean ====
section
/-! DEFINITION. The outside of an instance: the host's interactions (R33), its program statements
(R74, R75) and several instances side by side (R34, R59, R253). Nothing here is a command of the
block; every command runs through `step`. MAX_BUF_LEN is an argument `bound` (R6). -/

namespace Sys2Proof.Machine

/-! ## The host's interactions with one instance (R33) -/

/-- What a host can do to an instance between two commands (R33). A command in progress can be neither
observed, cancelled nor changed, since a transaction is atomic (R56, R276). -/
inductive HostOp where
  /-- Drive the request ports, IN and IN_LEN among them. -/
  | present (q : Request)
  /-- Issue the command the ports hold, and get its response. -/
  | issue
  /-- Reset the instance. -/
  | reset
  deriving DecidableEq, Repr

/-- The host drives the request ports; IN_LEN never exceeds MAX_BUF_LEN (R23, R53). -/
def presentRequest (bound : Option Nat) (q : Request) (s : State) :
    Host.Outcome State Fault Refusal :=
  if Config.fits bound q.inLen then .next { s with req := q } else .refused .bufferTooLong

/-- The effect of one interaction (R33). -/
def hostAct (bound : Option Nat) (op : HostOp) (s : State) : Host.Outcome State Fault Refusal :=
  match op with
  | .present q => presentRequest bound q s
  | .issue => step s
  | .reset => .next (resetInstance s)

/-! ## The host's program statements (R74) -/

/-- The request with IN holding the sequence `bs` and IN_LEN its length (R74). -/
def Request.withInput (q : Request) (bs : List Byte) : Request :=
  { q with inp := Memory.ofBytes bs, inLen := bs.length }

/-- What a host condition can name (R74). -/
inductive CondSubject where
  | status
  | statusClass
  | port (p : RPort)
  deriving DecidableEq, Repr

/-- A comparison with a constant; `equal` is false for `!=` (R74). -/
structure Condition where
  subject : CondSubject
  equal : Bool
  const : PortValue
  deriving DecidableEq, Repr

/-- One statement of a host program. A command statement names its CMD byte, so that an illegal CMD can
be issued too; labels are numbered (log entry 13). -/
inductive Stmt where
  /-- `<MNEMONIC> [<port>=<value>, ...]`; any list of ports is admitted (log entry 18). -/
  | command (cmd : Byte) (ports : List (APort × Nat))
  /-- `IN=[<byte>, ...]`. -/
  | setIn (bytes : List Byte)
  /-- `IN <- OUT`. -/
  | inFromOut
  /-- `IN <- IN[R_REM_OFF:]`; of the IN held now (log entry 17). -/
  | inFromRemainder
  /-- `<A_port> <- <R_port>`. -/
  | copy (a : APort) (r : RPort)
  /-- `if <condition> goto <label>`. -/
  | branch (c : Condition) (label : Nat)
  /-- `goto <label>`. -/
  | jump (label : Nat)
  /-- `<label>:`. -/
  | label (l : Nat)
  deriving DecidableEq, Repr

/-- A host program's position and the instance it drives. The position is the host's (R21, R75). -/
structure HostState where
  pos : Nat
  inst : State
  deriving DecidableEq, Repr

/-- Drive one scalar port; a value that does not fit the port is no value of it (R23, R74). -/
def drivePort (p : APort) (v : Nat) (q : Request) : Except Refusal Request :=
  if v < 2 ^ p.width then .ok (p.set v q) else .error (.valueTooWide p)

/-- Drive the ports a statement names, in order; the others keep what the host last gave them (R74).
DESIGN CHOICE (log entry 18), where R74 gives an ill-formed statement no effect: a named port that the
command does not read is driven all the same, and a port named twice ends with its last value. -/
def drivePorts : List (APort × Nat) → Request → Except Refusal Request
  | [], q => .ok q
  | (p, v) :: rest, q =>
    match drivePort p v q with
    | .error e => .error e
    | .ok q' => drivePorts rest q'

/-- What a condition's subject holds; a result port holding no value is a fault of the program (R27,
R74). -/
def subjectValue (c : CondSubject) (s : State) : Except Fault PortValue :=
  match c with
  | .status => .ok (.num s.status.toNat)
  | .statusClass => .ok (.num (statusClass s.status).toNat)
  | .port p => readResult p s

/-- Whether a condition holds (R74). -/
def evalCondition (c : Condition) (s : State) : Except Fault Bool :=
  match subjectValue c.subject s with
  | .error f => .error f
  | .ok v => .ok (decide (v = c.const) == c.equal)

/-- Where a label stands in a program. -/
def findLabel (l : Nat) : List Stmt → Option Nat
  | [] => none
  | st :: rest => if st = .label l then some 0 else (findLabel l rest).map (· + 1)

/-- Continue at a label (R74, R75). -/
def gotoLabel (prog : List Stmt) (l : Nat) (s : State) : Host.Outcome HostState Fault Refusal :=
  match findLabel l prog with
  | some k => .next { pos := k, inst := s }
  | none => .refused .noSuchLabel

/-- The host replaces IN, within MAX_BUF_LEN, and goes on (R53, R74). -/
def replaceIn (bound : Option Nat) (bytes : List Byte) (h : HostState) :
    Host.Outcome HostState Fault Refusal :=
  if Config.fits bound bytes.length then
    .next { pos := h.pos + 1, inst := { h.inst with req := h.inst.req.withInput bytes } }
  else .refused .bufferTooLong

/-- The effect of one statement (R74). Only a command statement issues anything to the block; a host
action changes nothing of the block's own, STATUS and the result ports (R75).
DESIGN CHOICE (log entry 17) for `IN <- IN[R_REM_OFF:]` when the host has replaced IN since the decode that
wrote R_REM_OFF: the suffix is of the IN held now, and it is empty where the offset lies past its end. -/
def runStmt (bound : Option Nat) (prog : List Stmt) (st : Stmt) (h : HostState) :
    Host.Outcome HostState Fault Refusal :=
  match st with
  | .command c ports =>
    match drivePorts ports (h.inst.req.withCmd c) with
    | .error e => .refused e
    | .ok q =>
      match step { h.inst with req := q } with
      | .next t => .next { pos := h.pos + 1, inst := t }
      | .fault f => .fault f
      | .refused r => .refused r
  | .setIn bytes => replaceIn bound bytes h
  | .inFromOut =>
    match readResult .out h.inst with
    | .ok (.bytes bs) => replaceIn bound bs h
    | .ok (.num _) => .refused (.notANumber .out)
    | .error f => .fault f
  | .inFromRemainder =>
    match h.inst.res.rRemOff, snapshotIn h.inst.req with
    | none, _ => .fault (.portHoldsNoValue .remOff)
    | some _, none => .fault .inputByteAbsent
    | some off, some bs => replaceIn bound (bs.drop off) h
  | .copy a r =>
    match readResult r h.inst with
    | .error f => .fault f
    | .ok (.bytes _) => .refused (.notANumber r)
    | .ok (.num v) =>
      match drivePort a v h.inst.req with
      | .error e => .refused e
      | .ok q => .next { pos := h.pos + 1, inst := { h.inst with req := q } }
  | .branch c l =>
    match evalCondition c h.inst with
    | .error f => .fault f
    | .ok true => gotoLabel prog l h.inst
    | .ok false => .next { h with pos := h.pos + 1 }
  | .jump l => gotoLabel prog l h.inst
  | .label _ => .next { h with pos := h.pos + 1 }

/-- One statement of a host program; a program that has ended stays where it is. -/
def hostStep (bound : Option Nat) (prog : List Stmt) (h : HostState) :
    Host.Outcome HostState Fault Refusal :=
  match prog[h.pos]? with
  | some st => runStmt bound prog st h
  | none => .next h

/-- At most `k` statements of a host program. -/
def hostRun (bound : Option Nat) (prog : List Stmt) : Nat → HostState → Host.Outcome HostState Fault Refusal
  | 0, h => .next h
  | k + 1, h =>
    match hostStep bound prog h with
    | .next h' => hostRun bound prog k h'
    | .fault f => .fault f
    | .refused r => .refused r

/-! ## Several instances (R253) -/

/-- Instances side by side: they share no state and do not communicate (R253). -/
structure System where
  instances : List State
  deriving DecidableEq, Repr

/-- N_INSTANCES instances, each right after its own reset (R6, R253). -/
def System.reset : System := { instances := List.replicate Config.nInstances State.reset }

/-- One interaction with instance `k`, which touches no other instance (R34, R59, R253). -/
def System.act (bound : Option Nat) (k : Nat) (op : HostOp) (y : System) :
    Host.Outcome System Fault Refusal :=
  match y.instances[k]? with
  | none => .refused .noSuchInstance
  | some s =>
    match hostAct bound op s with
    | .next t => .next { instances := y.instances.set k t }
    | .fault f => .fault f
    | .refused r => .refused r

end Sys2Proof.Machine
end

