-- ==== Sys2Proof/Safety.lean ====
section
/-! DEFINITION. The predicates claims are stated with: well-formed requests, well-formed responses, the
ports each command reads and writes (R71), and the reasons it can raise (R233). -/

namespace Sys2Proof.Machine

/-! ## Requests -/

/-- IN holds exactly the sequence `bytes` over its IN_LEN indices (R51). -/
def Request.holds (q : Request) (bytes : List Byte) : Prop :=
  q.inLen = bytes.length ∧ ∀ i, i < bytes.length → Memory.read q.inp i = bytes[i]?

/-- IN holds a byte at each of its IN_LEN indices (R51). -/
def Request.inputPresent (q : Request) : Prop :=
  ∀ i, i < q.inLen → (Memory.read q.inp i).isSome

/-- A request of the interface: IN is in canonical form, lists exactly the indices 0 to IN_LEN - 1, and
IN_LEN is within MAX_BUF_LEN (R23, R51, R53). -/
def Request.wf (q : Request) : Prop :=
  Memory.wf q.inp ∧ (∀ i, (Memory.read q.inp i).isSome ↔ i < q.inLen) ∧
    Config.fits Config.maxBufLen q.inLen = true

/-- The command reads IN and IN_LEN (R23, R71). -/
def readsIn : Instr → Bool
  | .rlDec => true
  | .fhDec => true
  | .cvhDec => true
  | .frameDec => true
  | .frameEnc => true
  | .bitGet => false
  | .bitSet => false
  | .rlEnc => false
  | .fhEnc => false
  | .cfDec => false
  | .cfEnc => false
  | .cvhEnc => false
  | .cavhEnc => false
  | .reservedCavhDec => false

/-- The scalar request ports a command reads (R71). -/
def portsRead : Instr → List APort
  | .bitGet => [.byte, .bitIdx]
  | .bitSet => [.byte, .bitIdx, .bitVal]
  | .rlDec => []
  | .rlEnc => [.value]
  | .fhDec => []
  | .fhEnc => [.ptype, .dup, .qos, .retain, .value]
  | .cfDec => [.byte]
  | .cfEnc => [.clean, .will, .wqos, .wretain, .password, .username]
  | .cvhDec => [.ptype]
  | .cvhEnc => [.clean, .will, .wqos, .wretain, .password, .username, .keepalive]
  | .cavhEnc => [.sp, .rc]
  | .frameDec => []
  | .frameEnc => [.ptype, .dup, .qos, .retain]
  | .reservedCavhDec => []

/-- Two requests agree on every port the command reads; for IN, on IN_LEN and on every byte (R35). -/
def agreeOnRead (i : Instr) (q r : Request) : Prop :=
  (∀ p ∈ portsRead i, p.get q = p.get r) ∧
    (readsIn i = true → q.inLen = r.inLen ∧ ∀ k, k < q.inLen → Memory.read q.inp k = Memory.read r.inp k)

/-! ## Responses -/

/-- The result ports a command writes when it ends with OK (R71); those of FRAME.DEC depend on
whether Stage 2 ran. -/
def portsWritten (i : Instr) (stage2 : Bool) : List RPort :=
  match i with
  | .bitGet => [.bit]
  | .bitSet => [.byte]
  | .rlDec => [.value, .consumed, .remOff]
  | .rlEnc => [.out, .outLen]
  | .fhDec => [.ptype, .dup, .qos, .retain, .rlen, .remOff]
  | .fhEnc => [.out, .outLen]
  | .cfDec => [.clean, .will, .wqos, .wretain, .password, .username]
  | .cfEnc => [.byte]
  | .cvhDec =>
    [.pname, .plevel, .clean, .will, .wqos, .wretain, .password, .username, .keepalive, .remOff]
  | .cvhEnc => [.out, .outLen]
  | .cavhEnc => [.out, .outLen]
  | .frameDec =>
    if stage2 then
      [.ptype, .dup, .qos, .retain, .rlen, .vh, .remOff, .pname, .plevel, .clean, .will, .wqos, .wretain,
        .password, .username, .keepalive]
    else [.ptype, .dup, .qos, .retain, .rlen, .vh, .remOff]
  | .frameEnc => [.out, .outLen]
  | .reservedCavhDec => []

/-- The reasons a command can raise (R233), at a given CF_DECODE_RESTRICTED. -/
def reasonsOf (restricted : Bool) : Instr → List Reason
  | .bitGet => []
  | .bitSet => []
  | .cavhEnc => []
  | .rlDec => [.shortBuffer, .rlTooLong]
  | .rlEnc => [.valueOutOfRange]
  | .fhDec => [.shortBuffer, .reservedQos, .rlTooLong]
  | .fhEnc => [.invalidQosOperand, .valueOutOfRange]
  | .frameEnc => [.invalidQosOperand, .valueOutOfRange]
  | .cfDec => [.reservedFlagBit, .reservedQos] ++ (if restricted then restrictedReasons else [])
  | .cfEnc => [.invalidQosOperand]
  | .cvhEnc => [.invalidQosOperand]
  | .cvhDec =>
    [.wrongPacketType, .shortBuffer, .badProtocolName, .unsupportedProtocolLevel, .reservedFlagBit,
      .reservedQos] ++ (if restricted then restrictedReasons else [])
  | .frameDec =>
    [.shortBuffer, .reservedQos, .rlTooLong, .badProtocolName, .unsupportedProtocolLevel,
      .reservedFlagBit] ++ (if restricted then restrictedReasons else [])
  | .reservedCavhDec => [.undefinedOpcode]

/-- A port's value, if it holds one, meets `P`. -/
def whenValid {α : Type} (o : Option α) (P : α → Prop) : Prop := ∀ v, o = some v → P v

/-- OUT lists exactly the indices 0 to OUT_LEN - 1, in canonical form, and nothing while OUT_LEN holds
no value (R24, R27, R52). -/
def Results.outWf (r : Results) : Prop :=
  Memory.wf r.out ∧ ∀ i, (Memory.read r.out i).isSome ↔ ∃ n, r.outLen = some n ∧ i < n

/-- The ranges R24 gives the result ports: R_QOS and R_WQOS are 0 to 2, R_CONSUMED is 1 to 4, R_PNAME
is always 'M' 'Q' 'T' 'T' and R_PLEVEL always 4. -/
def Results.inRange (r : Results) : Prop :=
  whenValid r.rQos (fun q => q.toNat ≤ 2) ∧
    whenValid r.rWqos (fun q => q.toNat ≤ 2) ∧
    whenValid r.rConsumed (fun n => 1 ≤ n.toNat ∧ n.toNat ≤ 4) ∧
    whenValid r.rPname (fun n => n = mqttName) ∧
    whenValid r.rPlevel (fun v => v = 4)

/-- STATUS is one of the words the block writes: IDLE, OK, or a class with one of its reasons (R25,
R26, R232). -/
def statusWritten (w : BitVec 16) : Prop :=
  w = statusIdle ∨ w = statusOk ∨ ∃ e : Reason, w = statusOf e

/-- What the response side of a state always satisfies: STATUS is a word the block writes, nothing is
valid unless CLASS is OK (R27), and what is valid is well-formed and in range. -/
def State.responseWf (s : State) : Prop :=
  statusWritten s.status ∧ (s.status ≠ statusOk → s.res = Results.empty) ∧ s.res.outWf ∧ s.res.inRange

/-- The invariant of an instance: a request of the interface and a well-formed response. -/
def State.Inv (s : State) : Prop := s.req.wf ∧ s.responseWf

/-! ## Outcomes claims name -/

/-- The instance after a command that returned: STATUS = 0x0000 and exactly the ports of `r` valid; the
request is as it was (R24, R27). -/
def State.okWith (s : State) (r : Results) : State := { req := s.req, status := 0x0000, res := r }

/-- The instance after a command that raised: STATUS = `w` and no port valid; the request is as it was
(R231). -/
def State.failedWith (s : State) (w : BitVec 16) : State :=
  { req := s.req, status := w, res := Results.empty }

/-- The results of a command that emitted the sequence `bs` and wrote no other port (R52). -/
def Results.ofOut (bs : List Byte) : Results :=
  { Results.empty with out := Memory.ofBytes bs, outLen := some bs.length }

/-- The commands at a given CF_DECODE_RESTRICTED (R6): the three that read the parameter take it as an
argument, the others do not depend on it. -/
def execAt (restricted : Bool) (i : Instr) (s : State) : Host.Outcome State Fault Refusal :=
  match i with
  | .cfDec => cfDecCommand restricted s
  | .cvhDec => cvhDecCommand restricted s
  | .frameDec => frameDecCommand restricted s
  | .bitGet => exec .bitGet s
  | .bitSet => exec .bitSet s
  | .rlDec => exec .rlDec s
  | .rlEnc => exec .rlEnc s
  | .fhDec => exec .fhDec s
  | .fhEnc => exec .fhEnc s
  | .cfEnc => exec .cfEnc s
  | .cvhEnc => exec .cvhEnc s
  | .cavhEnc => exec .cavhEnc s
  | .frameEnc => exec .frameEnc s
  | .reservedCavhDec => exec .reservedCavhDec s

/-- The command completes from both states, with the same STATUS and the same result ports. -/
def sameResponse (i : Instr) (s s' : State) : Prop :=
  ∃ t t', exec i s = .next t ∧ exec i s' = .next t' ∧ t.status = t'.status ∧ t.res = t'.res

/-- The most bytes of IN a command reads, counted from index 0; `none` is all of IN_LEN (R285). -/
def readLimit : Instr → Option Nat
  | .rlDec => some 4
  | .fhDec => some 5
  | .cvhDec => some 10
  | .frameDec => some 15
  | .frameEnc => none
  | .bitGet => some 0
  | .bitSet => some 0
  | .rlEnc => some 0
  | .fhEnc => some 0
  | .cfDec => some 0
  | .cfEnc => some 0
  | .cvhEnc => some 0
  | .cavhEnc => some 0
  | .reservedCavhDec => some 0

/-- A statement that issues a command to the block; every other statement is a host action (R75). -/
def Stmt.isCommand : Stmt → Bool
  | .command _ _ => true
  | .setIn _ => false
  | .inFromOut => false
  | .inFromRemainder => false
  | .copy _ _ => false
  | .branch _ _ => false
  | .jump _ => false
  | .label _ => false

/-! ## Remaining Length fields (R83 to R86), written from the wire format -/

/-- The number the digits of a field give: digit k is byte k modulo 128, with weight 128^k (R83). -/
def digitsValue : List Byte → Nat
  | [] => 0
  | b :: bs => b.toNat % 128 + 128 * digitsValue bs

/-- Every byte has its continuation bit set: bit 7, weight 128 (R83). -/
def allContinue (bs : List Byte) : Prop := ∀ b ∈ bs, 128 ≤ b.toNat

/-- A complete Remaining Length field: up to 3 continuing bytes, then one whose bit 7 is 0 (R83, R84). -/
def isRlField (f : List Byte) : Prop :=
  ∃ more last, f = more ++ [last] ∧ more.length ≤ 3 ∧ allContinue more ∧ last.toNat < 128

/-- A field is minimal: one byte, or a last byte other than 0x00 (R86, R124). -/
def isMinimal (f : List Byte) : Prop := f.length = 1 ∨ f.getLast? ≠ some 0

/-- The length of the minimal encoding of a value: 1 + the number of k in 1, 2, 3 with v >= 128^k
(R85, R123). -/
def rlLength (v : Nat) : Nat :=
  1 + (if 128 ≤ v then 1 else 0) + (if 16384 ≤ v then 1 else 0) + (if 2097152 ≤ v then 1 else 0)

/-- The minimal Remaining Length field of a value (R83, R85, R86). -/
def isRlEncoding (v : Nat) (f : List Byte) : Prop :=
  isRlField f ∧ isMinimal f ∧ digitsValue f = v ∧ f.length = rlLength v

end Sys2Proof.Machine
end

