-- ==== Sys2Proof/Certificates/Slice0/Obligations.lean ====
section
/-! DEFINITION. The statements about this model, each from numbered rules of spec/. `holds` says what
IN holds, `okWith` and `failedWith` give the whole next state, so that each result statement is its
command's frame as well. -/

open Sys2Proof Sys2Proof.Machine

/-! ## Decoding and the step -/

/-- R70, R71: every command's CMD byte decodes to it, and no other byte does. -/
def Obligations.DecodeAndEncodeAgree : Prop :=
  (∀ i : Instr, decodeCmd (encode i) = .ok i) ∧
    ∀ (c : Byte) (i : Instr), decodeCmd c = .ok i → encode i = c

/-- R71: a few CMD bytes of the opcode map, one per family, and the reserved code. -/
def Obligations.OpcodeMapWords : Prop :=
  decodeCmd 0x10 = .ok .bitGet ∧ decodeCmd 0x21 = .ok .rlEnc ∧ decodeCmd 0x30 = .ok .fhDec ∧
    decodeCmd 0x41 = .ok .cfEnc ∧ decodeCmd 0x50 = .ok .cvhDec ∧ decodeCmd 0x61 = .ok .cavhEnc ∧
    decodeCmd 0x71 = .ok .frameEnc ∧ decodeCmd 0x60 = .ok .reservedCavhDec

/-- R21, R70: the step of an instance is the command its CMD port holds, over that same state; the step
adds nothing around it. -/
def Obligations.StepRunsTheDecodedCommand : Prop :=
  (∀ (s : State) (i : Instr), decodeCmd s.req.cmd = .ok i → step s = exec i s) ∧
    ∀ (s : State) (w : Nat) (i : Instr), decodeTableWord 8 w = some i →
      step (s.withFetchWord 8 w) = exec i (s.withFetchWord 8 w)

/-- R76, R241: every CMD that is not one of the 13 raises IllegalCommand(UNDEFINED_OPCODE), whatever the
other ports hold, and there are 243 such values. -/
def Obligations.IllegalCmdRaisesUndefinedOpcode : Prop :=
  (∀ s : State,
      s.req.cmd.toNat ∉
        [0x10, 0x11, 0x20, 0x21, 0x30, 0x31, 0x40, 0x41, 0x50, 0x51, 0x61, 0x70, 0x71] →
      step s = .next (s.failedWith 0x4005)) ∧
    ((List.range 256).filter fun c =>
        (match decodeCmd (BitVec.ofNat 8 c) with
          | .ok i => !i.wellFormed
          | .error _ => true)).length = 243

/-- R78: the reserved code 0x60 is illegal on this hardware. -/
def Obligations.ReservedConnackDecoderIsIllegal : Prop :=
  decodeCmd 0x60 = .ok .reservedCavhDec ∧
    ∀ s : State, exec .reservedCavhDec s = .next (s.failedWith 0x4005)

/-- R6: on this hardware the three decoders run at CF_DECODE_RESTRICTED = true. -/
def Obligations.HardwareRunsTheRestrictedDecoders : Prop :=
  ∀ (i : Instr) (s : State), exec i s = execAt true i s

/-! ## Reset -/

/-- R32, R270, R271: STATUS = 0x0007, no result port holds a value, a reset of a running instance leaves
the request ports and IN as they are, and any command is legal as the first after reset. -/
def Obligations.ResetLeavesIdleAndNoResult : Prop :=
  State.reset.status = 0x0007 ∧
    (∀ p : RPort, readResult p State.reset = .error (.portHoldsNoValue p)) ∧
    (∀ s : State, (resetInstance s).status = 0x0007 ∧ (resetInstance s).req = s.req ∧
      ∀ p : RPort, readResult p (resetInstance s) = .error (.portHoldsNoValue p)) ∧
    ∀ s : State, s.req.inputPresent → ∃ t, step (resetInstance s) = .next t

/-- Reset satisfies the invariant of an instance, whatever MAX_BUF_LEN is. The request ports at reset are
the model's choice (log entry 2). -/
def Obligations.ResetMeetsTheInvariant : Prop := State.reset.Inv

/-! ## Invariants -/

/-- R25, R26, R27, R51, R52: every step keeps the invariant: IN stays a canonical request, STATUS is a word
the block writes, nothing is valid unless CLASS is OK, OUT lists exactly its OUT_LEN bytes in canonical
form, and the result ports are in the ranges R24 gives. -/
def Obligations.EveryStepKeepsTheInvariant : Prop :=
  ∀ s t : State, s.Inv → step s = .next t → t.Inv

/-- R33, R74: every statement of every host program keeps the invariant of the instance it drives. -/
def Obligations.EveryHostStatementKeepsTheInvariant : Prop :=
  ∀ (prog : List Stmt) (h h' : HostState), h.inst.Inv →
    hostStep Config.maxBufLen prog h = .next h' → h'.inst.Inv

/-- R25, R26: after every step the reserved bits read 0, CLASS is one of 0 to 5, and REASON is 0x00 exactly
when CLASS is OK. -/
def Obligations.StatusFieldsAfterEveryStep : Prop :=
  ∀ s t : State, step s = .next t →
    statusReserved t.status = 0 ∧ (statusClass t.status).toNat ≤ 5 ∧
      (statusReason t.status = 0 ↔ statusClass t.status = 0)

/-- R232: the STATUS word of every reason code, and no two reasons share one. -/
def Obligations.ReasonCodesAreTheTable : Prop :=
  Reason.all.map statusOf =
      [0x0101, 0x0201, 0x1002, 0x1102, 0x1202, 0x1302, 0x1402, 0x2003, 0x2103, 0x2203, 0x2303, 0x2403,
        0x2503, 0x3004, 0x3104, 0x4005] ∧
    ∀ d e : Reason, statusOf d = statusOf e → d = e

/-! ## Frames, validity and independence -/

/-- R51, R231: no command writes IN or any request port, whether it returns or raises: every byte of IN
reads as before. -/
def Obligations.NoCommandWritesTheRequest : Prop :=
  ∀ (i : Instr) (s t : State), exec i s = .next t →
    t.req = s.req ∧ ∀ a, Memory.read t.req.inp a = Memory.read s.req.inp a

/-- R27: after OK exactly the ports the command's rule writes are valid; after any other CLASS none is,
and reading one that is not valid is a fault. -/
def Obligations.ExactlyTheWrittenPortsAreValid : Prop :=
  ∀ (i : Instr) (s t : State), exec i s = .next t →
    (statusClass t.status = 0 →
      ∀ p : RPort, (∃ v, readResult p t = .ok v) ↔ p ∈ portsWritten i (t.res.rVh == some true)) ∧
    (statusClass t.status ≠ 0 →
      (∀ p : RPort, readResult p t = .error (.portHoldsNoValue p)) ∧ t.res.out = []) ∧
    ∀ p : RPort, (¬ ∃ v, readResult p t = .ok v) → readResult p t = .error (.portHoldsNoValue p)

/-- R233: a command returns, or raises one of the reasons listed for it, at either value of
CF_DECODE_RESTRICTED; each listed reason is raised by some request; and an illegal CMD raises
UNDEFINED_OPCODE. -/
def Obligations.ExactlyTheListedReasonsAreRaised : Prop :=
  (∀ (restricted : Bool) (i : Instr) (s t : State), execAt restricted i s = .next t →
      t.status = 0x0000 ∨ ∃ e ∈ reasonsOf restricted i, t.status = statusOf e) ∧
    (∀ (restricted : Bool) (i : Instr) (e : Reason), e ∈ reasonsOf restricted i →
      ∃ s t : State, execAt restricted i s = .next t ∧ t.status = statusOf e) ∧
    ∀ s t : State, (∀ i, decodeCmd s.req.cmd = .ok i → i.wellFormed = false) → step s = .next t →
      t.status = statusOf .undefinedOpcode

/-- R35: two requests that agree on every port a command reads produce the same response, whatever the
other ports, STATUS and the result ports hold. -/
def Obligations.UnreadPortsHaveNoEffect : Prop :=
  ∀ (i : Instr) (s s' : State), (readsIn i = true → s.req.inputPresent) →
    agreeOnRead i s.req s'.req → sameResponse i s s'

/-- R29, R238: no result depends on the outcome of an earlier command, an error among them. -/
def Obligations.EarlierOutcomesHaveNoEffect : Prop :=
  ∀ (i : Instr) (s t : State) (w : BitVec 16) (r : Results),
    exec i s = .next t → exec i { s with status := w, res := r } = .next t

/-- R57: a command changes no byte of IN and no request port, and issuing the same request twice gives the
same response both times. -/
def Obligations.IssuingTwiceGivesTheSameResponse : Prop :=
  ∀ s t : State, step s = .next t → t.req = s.req ∧ step t = .next t

/-- R285: every command terminates; its response is settled by the bytes of IN within its read bound (none
for CVH.DEC when its packet-type test fails); and only the five encoders that write OUT emit, FRAME.ENC at
most IN_LEN + 5 bytes and the others at most 10. -/
def Obligations.EveryCommandTerminatesWithinItsBounds : Prop :=
  (∀ (i : Instr) (s : State), (readsIn i = true → s.req.inputPresent) → ∃ t, exec i s = .next t) ∧
    (∀ (i : Instr) (s s' : State) (n : Nat) (bs bs' : List Byte), readLimit i = some n →
      (∀ p ∈ portsRead i, p.get s.req = p.get s'.req) → s.req.holds bs → s'.req.holds bs' →
      bs.take n = bs'.take n → sameResponse i s s') ∧
    (∀ s s' : State, s.req.aPtype = s'.req.aPtype → s.req.aPtype ≠ 1 → s.req.inputPresent →
      s'.req.inputPresent → sameResponse .cvhDec s s') ∧
    ∀ (i : Instr) (s t : State) (n : Nat), exec i s = .next t → t.res.outLen = some n →
      i ∈ [.rlEnc, .fhEnc, .cvhEnc, .cavhEnc, .frameEnc] ∧
        n ≤ (if i = .frameEnc then s.req.inLen + 5 else 10)

/-- R51, and the model's choice of log entry 4: a command is never refused, and the model stops only on a
command that reads IN while IN lacks one of its IN_LEN bytes. -/
def Obligations.CommandsStopOnlyOnAnAbsentInputByte : Prop :=
  ∀ (i : Instr) (s : State),
    (∀ r, exec i s ≠ .refused r) ∧
      ∀ f, exec i s = .fault f ↔ f = .inputByteAbsent ∧ readsIn i = true ∧ ¬ s.req.inputPresent

/-- R24: R_REM_OFF never lies beyond IN_LEN; it is 1 to 4 after RL.DEC (R120), 2 to 5 after FH.DEC
(R140), 10 after CVH.DEC (R180), and 2 to 15 after FRAME.DEC (R210). -/
def Obligations.RemainderOffsetLiesWithinIn : Prop :=
  ∀ (i : Instr) (s t : State) (n : Nat), exec i s = .next t → t.res.rRemOff = some n →
    n ≤ s.req.inLen ∧ (i = .rlDec → 1 ≤ n ∧ n ≤ 4) ∧ (i = .fhDec → 2 ≤ n ∧ n ≤ 5) ∧
      (i = .cvhDec → n = 10) ∧ (i = .frameDec → 2 ≤ n ∧ n ≤ 15)

/-- R240: an error of a called function ends the caller with the same STATUS: FH.DEC's in FRAME.DEC,
RLDecode's in FH.DEC, CFDecode's in CVH.DEC, CVHDecode's in FRAME.DEC, RLEncode's in FH.ENC, CFEncode's
in CVH.ENC, and FHEncode's in FRAME.ENC. -/
def Obligations.ErrorsPropagateUnchanged : Prop :=
  (∀ (restricted : Bool) (s : State) (bs : List Byte) (e : Reason), s.req.holds bs →
      fhDecode bs = .error e → execAt restricted .frameDec s = .next (s.failedWith (statusOf e))) ∧
    (∀ (s : State) (b0 b1 : Byte) (bs : List Byte) (e : Reason), s.req.holds (b0 :: b1 :: bs) →
      b0.toNat / 2 % 4 ≠ 3 → rlDecode (b1 :: bs) = .error e →
      exec .fhDec s = .next (s.failedWith (statusOf e))) ∧
    (∀ (restricted : Bool) (s : State) (f hi lo : Byte) (rest : List Byte) (e : Reason),
      s.req.holds ([0x00, 0x04, 0x4D, 0x51, 0x54, 0x54, 0x04, f, hi, lo] ++ rest) →
      s.req.aPtype = 1 → cfDecode restricted f = .error e →
      execAt restricted .cvhDec s = .next (s.failedWith (statusOf e))) ∧
    (∀ (restricted : Bool) (s : State) (bs : List Byte) (h : FixedHeader) (off : Nat) (e : Reason),
      s.req.holds bs → fhDecode bs = .ok (h, off) → h.packetType = 1 →
      cvhDecode restricted 1 (bs.drop off) = .error e →
      execAt restricted .frameDec s = .next (s.failedWith (statusOf e))) ∧
    (∀ (s : State) (e : Reason), s.req.aQos ≠ 3 → rlEncode s.req.aValue.toNat = .error e →
      exec .fhEnc s = .next (s.failedWith (statusOf e))) ∧
    (∀ (s : State) (e : Reason), cfEncode (flagsOperand s.req) = .error e →
      exec .cvhEnc s = .next (s.failedWith (statusOf e))) ∧
    ∀ (s : State) (body : List Byte) (e : Reason), s.req.holds body →
      fhEncode s.req.aPtype s.req.aDup s.req.aQos s.req.aRetain body.length = .error e →
      exec .frameEnc s = .next (s.failedWith (statusOf e))

/-- R34, R59, R253: an interaction with one instance leaves every other as it was, and interactions with
different instances give the same system in either order. -/
def Obligations.InstancesAreIndependent : Prop :=
  (∀ (bound : Option Nat) (y y' : System) (j k : Nat) (a : HostOp), j ≠ k →
      y.act bound j a = .next y' → y'.instances[k]? = y.instances[k]?) ∧
    ∀ (bound : Option Nat) (y y1 y2 : System) (j k : Nat) (a b : HostOp), j ≠ k →
      y.act bound j a = .next y1 → y.act bound k b = .next y2 →
      ∃ y3, y1.act bound k b = .next y3 ∧ y2.act bound j a = .next y3

/-! ## BitOps -/

/-- R110: BIT.GET returns bit A_BITIDX of A_BYTE and writes no other port. -/
def Obligations.BitGetReadsTheIndexedBit : Prop :=
  ∀ s : State, exec .bitGet s =
    .next (s.okWith
      { Results.empty with rBit := some (s.req.aByte.toNat / 2 ^ s.req.aBitIdx.toNat % 2 == 1) })

/-- R111: BIT.SET returns A_BYTE with bit A_BITIDX replaced by A_BITVAL and every other bit copied. -/
def Obligations.BitSetReplacesTheIndexedBit : Prop :=
  ∀ s : State, ∃ v : Byte,
    exec .bitSet s = .next (s.okWith { Results.empty with rByte := some v }) ∧
      ∀ j, j < 8 → v.getLsbD j =
        if j = s.req.aBitIdx.toNat then s.req.aBitVal else s.req.aByte.getLsbD j

/-- R112: every bit a decoder extracts is a BIT.GET (a QoS code is two), and every byte an encoder places
is a chain of BIT.SETs on 0x00. -/
def Obligations.CodecsAreBitOpsCompositions : Prop :=
  (∀ (bs : List Byte) (h : FixedHeader) (n : Nat), fhDecode bs = .ok (h, n) →
      ∃ b0, bs[0]? = some b0 ∧ h.dup = bitGet b0 3 ∧ h.retain = bitGet b0 0 ∧
        h.qos = BitVec.ofBool (bitGet b0 2) ++ BitVec.ofBool (bitGet b0 1) ∧
        h.packetType = BitVec.ofBool (bitGet b0 7) ++ BitVec.ofBool (bitGet b0 6) ++
          BitVec.ofBool (bitGet b0 5) ++ BitVec.ofBool (bitGet b0 4)) ∧
    (∀ (restricted : Bool) (f : Byte) (c : ConnectFlags), cfDecode restricted f = .ok c →
      c.cleanSession = bitGet f 1 ∧ c.willFlag = bitGet f 2 ∧
        c.willQos = BitVec.ofBool (bitGet f 4) ++ BitVec.ofBool (bitGet f 3) ∧
        c.willRetain = bitGet f 5 ∧ c.passwordFlag = bitGet f 6 ∧ c.userNameFlag = bitGet f 7) ∧
    (∀ (pt : BitVec 4) (dup retain : Bool) (qos : BitVec 2) (v : Nat) (bs : List Byte),
      fhEncode pt dup qos retain v = .ok bs →
      bs[0]? = some
        (bitSet (bitSet (bitSet (bitSet (bitSet (bitSet (bitSet (bitSet 0 7 (pt.getLsbD 3)) 6
          (pt.getLsbD 2)) 5 (pt.getLsbD 1)) 4 (pt.getLsbD 0)) 3 dup) 2 (qos.getLsbD 1)) 1
          (qos.getLsbD 0)) 0 retain)) ∧
    ∀ (c : ConnectFlags) (f : Byte), cfEncode c = .ok f →
      f =
        bitSet (bitSet (bitSet (bitSet (bitSet (bitSet (bitSet 0 7 c.userNameFlag) 6 c.passwordFlag) 5
          c.willRetain) 4 (c.willQos.getLsbD 1)) 3 (c.willQos.getLsbD 0)) 2 c.willFlag) 1
          c.cleanSession

/-! ## Remaining Length -/

/-- R120: RL.DEC on every IN: a complete field gives its value, its length and the remainder's offset,
minimal or not and whatever follows; four continuing bytes give RL_TOO_LONG whatever follows; fewer than
four, all continuing, give SHORT_BUFFER. -/
def Obligations.RlDecDecodesTheLeadingField : Prop :=
  (∀ (s : State) (f rest : List Byte), isRlField f → s.req.holds (f ++ rest) →
      digitsValue f < 2 ^ 28 ∧
        exec .rlDec s = .next (s.okWith
          { Results.empty with
            rValue := some (BitVec.ofNat 28 (digitsValue f))
            rConsumed := some (BitVec.ofNat 3 f.length)
            rRemOff := some f.length })) ∧
    (∀ (s : State) (f rest : List Byte), allContinue f → f.length = 4 → s.req.holds (f ++ rest) →
      exec .rlDec s = .next (s.failedWith 0x0201)) ∧
    ∀ (s : State) (f : List Byte), allContinue f → f.length < 4 → s.req.holds f →
      exec .rlDec s = .next (s.failedWith 0x0101)

/-- R121, R123: RL.ENC emits the minimal field of A_VALUE, of the length R123 gives, or raises
VALUE_OUT_OF_RANGE above 268,435,455 and emits nothing. -/
def Obligations.RlEncEmitsTheMinimalField : Prop :=
  (∀ s : State, s.req.aValue.toNat ≤ 268435455 →
      ∃ f, isRlEncoding s.req.aValue.toNat f ∧ exec .rlEnc s = .next (s.okWith (Results.ofOut f))) ∧
    ∀ s : State, 268435455 < s.req.aValue.toNat → exec .rlEnc s = .next (s.failedWith 0x3004)

/-- R122: RL.ENC, the host's IN <- OUT, and RL.DEC give back every value 0 to 268,435,455, and consume all
that was emitted. -/
def Obligations.RemainingLengthRoundTrip : Prop :=
  ∀ s : State, s.req.aValue.toNat ≤ 268435455 →
    ∃ t f u, exec .rlEnc s = .next t ∧ readResult .out t = .ok (.bytes f) ∧
      exec .rlDec { t with req := t.req.withInput f } = .next u ∧
      readResult .value u = .ok (.num s.req.aValue.toNat) ∧
      readResult .consumed u = .ok (.num f.length)

/-- R124: re-encoding a decoded value gives the bytes it came from exactly when those are minimal, and
fewer bytes otherwise. -/
def Obligations.ReencodingIsTheIdentityExactlyOnMinimalFields : Prop :=
  ∀ (bs : List Byte) (v n : Nat), rlDecode bs = .ok (v, n) →
    ∃ g, rlEncode v = .ok g ∧
      (g = bs.take n ↔ n = 1 ∨ bs[n - 1]? ≠ some 0) ∧
      (¬ (n = 1 ∨ bs[n - 1]? ≠ some 0) → g.length < n)

/-! ## Fixed Header -/

/-- R140, R143, R144: FH.DEC on every IN. A byte 0 of any packet type whose QoS code is not 3, followed by
a complete field, decodes whatever follows; shorter than 2 bytes is SHORT_BUFFER; then QoS code 3 is
RESERVED_QOS; then the field's own errors. -/
def Obligations.FhDecDecodesTheFixedHeader : Prop :=
  (∀ (s : State) (b0 : Byte) (f rest : List Byte), b0.toNat / 2 % 4 ≠ 3 → isRlField f →
      s.req.holds (b0 :: (f ++ rest)) →
      exec .fhDec s = .next (s.okWith
        { Results.empty with
          rPtype := some (BitVec.ofNat 4 (b0.toNat / 16))
          rDup := some (b0.toNat / 8 % 2 == 1)
          rQos := some (BitVec.ofNat 2 (b0.toNat / 2 % 4))
          rRetain := some (b0.toNat % 2 == 1)
          rRlen := some (BitVec.ofNat 28 (digitsValue f))
          rRemOff := some (1 + f.length) })) ∧
    (∀ (s : State) (bs : List Byte), bs.length < 2 → s.req.holds bs →
      exec .fhDec s = .next (s.failedWith 0x0101)) ∧
    (∀ (s : State) (b0 b1 : Byte) (rest : List Byte), b0.toNat / 2 % 4 = 3 →
      s.req.holds (b0 :: b1 :: rest) → exec .fhDec s = .next (s.failedWith 0x1402)) ∧
    (∀ (s : State) (b0 : Byte) (f rest : List Byte), b0.toNat / 2 % 4 ≠ 3 → allContinue f →
      f.length = 4 → s.req.holds (b0 :: (f ++ rest)) →
      exec .fhDec s = .next (s.failedWith 0x0201)) ∧
    ∀ (s : State) (b0 : Byte) (f : List Byte), b0.toNat / 2 % 4 ≠ 3 → allContinue f →
      1 ≤ f.length → f.length < 4 → s.req.holds (b0 :: f) →
      exec .fhDec s = .next (s.failedWith 0x0101)

/-- R141, R143: FH.ENC emits byte 0 = (packetType << 4) | flagBits for every packet type, then the minimal
field of A_VALUE; A_QOS = 3 raises INVALID_QOS_OPERAND before the range check. -/
def Obligations.FhEncEmitsTheFixedHeader : Prop :=
  (∀ s : State, s.req.aQos ≠ 3 → s.req.aValue.toNat ≤ 268435455 →
      ∃ f, isRlEncoding s.req.aValue.toNat f ∧
        exec .fhEnc s = .next (s.okWith (Results.ofOut
          (BitVec.ofNat 8 (16 * s.req.aPtype.toNat + 8 * s.req.aDup.toNat + 2 * s.req.aQos.toNat +
            s.req.aRetain.toNat) :: f)))) ∧
    (∀ s : State, s.req.aQos = 3 → exec .fhEnc s = .next (s.failedWith 0x3104)) ∧
    ∀ s : State, s.req.aQos ≠ 3 → 268435455 < s.req.aValue.toNat →
      exec .fhEnc s = .next (s.failedWith 0x3004)

/-- R142: FH.ENC, IN <- OUT and FH.DEC give back every header whose QoS is not 3, packet types 0 and 15
among them, and consume all that was emitted. -/
def Obligations.FixedHeaderRoundTrip : Prop :=
  ∀ s : State, s.req.aQos ≠ 3 → s.req.aValue.toNat ≤ 268435455 →
    ∃ t f, exec .fhEnc s = .next t ∧ readResult .out t = .ok (.bytes f) ∧
      exec .fhDec { t with req := t.req.withInput f } =
        .next (State.okWith { t with req := t.req.withInput f }
          { Results.empty with
            rPtype := some s.req.aPtype
            rDup := some s.req.aDup
            rQos := some s.req.aQos
            rRetain := some s.req.aRetain
            rRlen := some (BitVec.ofNat 28 s.req.aValue.toNat)
            rRemOff := some f.length })

/-! ## Connect Flags -/

/-- R160: CF.DEC on every byte: the reserved bit first, then willQoS code 3, then the first violated field
in the order cleanSession, willFlag, willQoS, willRetain, passwordFlag, userNameFlag; otherwise each
result port is its field. With CF_DECODE_RESTRICTED = false only the subset checks are dropped. -/
def Obligations.CfDecChecksThenExtracts : Prop :=
  (∀ s : State, exec .cfDec s = .next (
    let f := s.req.aByte.toNat
    if f % 2 = 1 then s.failedWith 0x1302
    else if f / 8 % 4 = 3 then s.failedWith 0x1402
    else if f / 2 % 2 = 0 then s.failedWith 0x2003
    else if f / 4 % 2 = 1 then s.failedWith 0x2103
    else if f / 8 % 4 ≠ 0 then s.failedWith 0x2203
    else if f / 32 % 2 = 1 then s.failedWith 0x2303
    else if f / 64 % 2 = 1 then s.failedWith 0x2403
    else if f / 128 = 1 then s.failedWith 0x2503
    else s.okWith
      { Results.empty with
        rClean := some true
        rWill := some false
        rWqos := some 0
        rWretain := some false
        rPassword := some false
        rUsername := some false })) ∧
    ∀ s : State, execAt false .cfDec s = .next (
    let f := s.req.aByte.toNat
    if f % 2 = 1 then s.failedWith 0x1302
    else if f / 8 % 4 = 3 then s.failedWith 0x1402
    else s.okWith
      { Results.empty with
        rClean := some (f / 2 % 2 == 1)
        rWill := some (f / 4 % 2 == 1)
        rWqos := some (BitVec.ofNat 2 (f / 8 % 4))
        rWretain := some (f / 32 % 2 == 1)
        rPassword := some (f / 64 % 2 == 1)
        rUsername := some (f / 128 == 1) })

/-- R162, R163: restricted decode accepts exactly the byte 0x02; unrestricted decode accepts exactly the 96
bytes with bit 0 = 0 and bits [4:3] other than 11, which are exactly the bytes CFEncode produces. -/
def Obligations.AcceptedConnectFlagsBytes : Prop :=
  (∀ s : State, exec .cfDec s = .next (s.okWith (withFlags ⟨true, false, 0, false, false, false⟩
      Results.empty)) ↔ s.req.aByte = 0x02) ∧
    (∀ f : Byte, (∃ c, cfDecode true f = .ok c) ↔ f = 0x02) ∧
    (∀ f : Byte, (∃ c, cfDecode false f = .ok c) ↔ f.toNat % 2 = 0 ∧ f.toNat / 8 % 4 ≠ 3) ∧
    (∀ f : Byte, (∃ c, cfDecode false f = .ok c) ↔ ∃ c, cfEncode c = .ok f) ∧
    ((List.range 256).filter fun f => f % 2 = 0 ∧ f / 8 % 4 ≠ 3).length = 96

/-- R161: CF.ENC places each flag at its bit, with bit 0 = 0 and no subset check; A_WQOS = 3 raises
INVALID_QOS_OPERAND. -/
def Obligations.CfEncPlacesTheFlags : Prop :=
  (∀ s : State, s.req.aWqos ≠ 3 → exec .cfEnc s = .next (s.okWith
      { Results.empty with
        rByte := some (BitVec.ofNat 8 (128 * s.req.aUsername.toNat + 64 * s.req.aPassword.toNat +
          32 * s.req.aWretain.toNat + 8 * s.req.aWqos.toNat + 4 * s.req.aWill.toNat +
          2 * s.req.aClean.toNat)) })) ∧
    ∀ s : State, s.req.aWqos = 3 → exec .cfEnc s = .next (s.failedWith 0x3104)

/-- R164: decoding an encoded record gives it back, for every record when unrestricted and for
cleanSession alone when restricted; and encoding a decoded record gives back its byte. -/
def Obligations.ConnectFlagsRoundTrip : Prop :=
  (∀ (c : ConnectFlags) (f : Byte), cfEncode c = .ok f → cfDecode false f = .ok c) ∧
    (∀ (c : ConnectFlags) (f : Byte), cfEncode c = .ok f →
      (cfDecode true f = .ok c ↔ c = ⟨true, false, 0, false, false, false⟩)) ∧
    (∀ c : ConnectFlags, c.willQos ≠ 3 → ∃ f, cfEncode c = .ok f) ∧
    ∀ (restricted : Bool) (f : Byte) (c : ConnectFlags), cfDecode restricted f = .ok c →
      cfEncode c = .ok f

/-! ## CONNECT Variable Header -/

/-- R180: CVH.DEC at either value of CF_DECODE_RESTRICTED: the packet type first (0 and 15 among the
rejected), then the length, the name, the level, the flags byte's own errors; otherwise the ten bytes give
the header, whatever follows. The last clause is the one flags byte this hardware accepts. -/
def Obligations.CvhDecChecksThenExtracts : Prop :=
  (∀ (restricted : Bool) (s : State), s.req.aPtype ≠ 1 → s.req.inputPresent →
      execAt restricted .cvhDec s = .next (s.failedWith 0x1002)) ∧
    (∀ (restricted : Bool) (s : State) (bs : List Byte), s.req.aPtype = 1 → s.req.holds bs →
      bs.length < 10 → execAt restricted .cvhDec s = .next (s.failedWith 0x0101)) ∧
    (∀ (restricted : Bool) (s : State) (bs : List Byte), s.req.aPtype = 1 → s.req.holds bs →
      10 ≤ bs.length → bs.take 6 ≠ [0x00, 0x04, 0x4D, 0x51, 0x54, 0x54] →
      execAt restricted .cvhDec s = .next (s.failedWith 0x1102)) ∧
    (∀ (restricted : Bool) (s : State) (bs : List Byte), s.req.aPtype = 1 → s.req.holds bs →
      10 ≤ bs.length → bs.take 6 = [0x00, 0x04, 0x4D, 0x51, 0x54, 0x54] → bs[6]? ≠ some 0x04 →
      execAt restricted .cvhDec s = .next (s.failedWith 0x1202)) ∧
    (∀ (restricted : Bool) (s : State) (f hi lo : Byte) (rest : List Byte) (e : Reason),
      s.req.aPtype = 1 →
      s.req.holds ([0x00, 0x04, 0x4D, 0x51, 0x54, 0x54, 0x04, f, hi, lo] ++ rest) →
      cfDecode restricted f = .error e →
      execAt restricted .cvhDec s = .next (s.failedWith (statusOf e))) ∧
    (∀ (restricted : Bool) (s : State) (f hi lo : Byte) (rest : List Byte) (c : ConnectFlags),
      s.req.aPtype = 1 →
      s.req.holds ([0x00, 0x04, 0x4D, 0x51, 0x54, 0x54, 0x04, f, hi, lo] ++ rest) →
      cfDecode restricted f = .ok c →
      execAt restricted .cvhDec s = .next (s.okWith
        { Results.empty with
          rPname := some ⟨0x4D, 0x51, 0x54, 0x54⟩
          rPlevel := some 4
          rClean := some c.cleanSession
          rWill := some c.willFlag
          rWqos := some c.willQos
          rWretain := some c.willRetain
          rPassword := some c.passwordFlag
          rUsername := some c.userNameFlag
          rKeepalive := some (BitVec.ofNat 16 (hi.toNat * 256 + lo.toNat))
          rRemOff := some 10 })) ∧
    ∀ (s : State) (hi lo : Byte) (rest : List Byte), s.req.aPtype = 1 →
      s.req.holds ([0x00, 0x04, 0x4D, 0x51, 0x54, 0x54, 0x04, 0x02, hi, lo] ++ rest) →
      exec .cvhDec s = .next (s.okWith
        { Results.empty with
          rPname := some ⟨0x4D, 0x51, 0x54, 0x54⟩
          rPlevel := some 4
          rClean := some true
          rWill := some false
          rWqos := some 0
          rWretain := some false
          rPassword := some false
          rUsername := some false
          rKeepalive := some (BitVec.ofNat 16 (hi.toNat * 256 + lo.toNat))
          rRemOff := some 10 })

/-- R181: CVH.ENC emits the prefix, the level, the flags byte of R161 and keepAlive big-endian, ten bytes
in all; A_WQOS = 3 raises INVALID_QOS_OPERAND and nothing is emitted. -/
def Obligations.CvhEncEmitsTheHeader : Prop :=
  (∀ s : State, s.req.aWqos ≠ 3 → exec .cvhEnc s = .next (s.okWith (Results.ofOut
      [0x00, 0x04, 0x4D, 0x51, 0x54, 0x54, 0x04,
        BitVec.ofNat 8 (128 * s.req.aUsername.toNat + 64 * s.req.aPassword.toNat +
          32 * s.req.aWretain.toNat + 8 * s.req.aWqos.toNat + 4 * s.req.aWill.toNat +
          2 * s.req.aClean.toNat),
        BitVec.ofNat 8 (s.req.aKeepalive.toNat / 256), BitVec.ofNat 8 (s.req.aKeepalive.toNat % 256)]))) ∧
    ∀ s : State, s.req.aWqos = 3 → exec .cvhEnc s = .next (s.failedWith 0x3104)

/-- R182: CVH.ENC, IN <- OUT and CVH.DEC of packet type 1 give back every record the decoder accepts once
encoded, with its keepAlive; when restricted that is cleanSession alone, and every other record the
encoder emits is rejected. -/
def Obligations.ConnectHeaderRoundTrip : Prop :=
  (∀ (restricted : Bool) (s : State) (f : Byte) (c : ConnectFlags),
      cfEncode (flagsOperand s.req) = .ok f → cfDecode restricted f = .ok c →
      ∃ t bs, exec .cvhEnc s = .next t ∧ readResult .out t = .ok (.bytes bs) ∧ bs.length = 10 ∧
        execAt restricted .cvhDec { t with req := { t.req.withInput bs with aPtype := 1 } } =
          .next (State.okWith { t with req := { t.req.withInput bs with aPtype := 1 } }
            { Results.empty with
              rPname := some ⟨0x4D, 0x51, 0x54, 0x54⟩
              rPlevel := some 4
              rClean := some s.req.aClean
              rWill := some s.req.aWill
              rWqos := some s.req.aWqos
              rWretain := some s.req.aWretain
              rPassword := some s.req.aPassword
              rUsername := some s.req.aUsername
              rKeepalive := some s.req.aKeepalive
              rRemOff := some 10 })) ∧
    ∀ (c : ConnectFlags) (f : Byte), cfEncode c = .ok f →
      ((∃ d, cfDecode true f = .ok d) ↔ c = ⟨true, false, 0, false, false, false⟩)

/-! ## CONNACK Variable Header -/

/-- R200, R89: CAVH.ENC emits sessionPresent as 0x00 or 0x01, then returnCode unchanged. -/
def Obligations.CavhEncEmitsTwoBytes : Prop :=
  ∀ s : State, exec .cavhEnc s =
    .next (s.okWith (Results.ofOut [if s.req.aSp then 0x01 else 0x00, s.req.aRc]))

/-! ## Frames -/

/-- R210, R212: FRAME.DEC at either value of CF_DECODE_RESTRICTED: a packet type other than 1 ends after
Stage 1 with R_VH = 0; packet type 1 runs the CONNECT decoder over all that follows the Fixed Header,
whatever Remaining Length says; an error of either stage ends the command with no port valid. The third
clause is a CONNECT header this hardware accepts. -/
def Obligations.FrameDecRunsTheTwoStages : Prop :=
  (∀ (s : State) (b0 : Byte) (f rest : List Byte), b0.toNat / 16 ≠ 1 → b0.toNat / 2 % 4 ≠ 3 →
      isRlField f → s.req.holds (b0 :: (f ++ rest)) → ∀ restricted : Bool,
      execAt restricted .frameDec s = .next (s.okWith
        { Results.empty with
          rPtype := some (BitVec.ofNat 4 (b0.toNat / 16))
          rDup := some (b0.toNat / 8 % 2 == 1)
          rQos := some (BitVec.ofNat 2 (b0.toNat / 2 % 4))
          rRetain := some (b0.toNat % 2 == 1)
          rRlen := some (BitVec.ofNat 28 (digitsValue f))
          rVh := some false
          rRemOff := some (1 + f.length) })) ∧
    (∀ (restricted : Bool) (s : State) (b0 : Byte) (f rest : List Byte) (v : ConnectHeader) (off2 : Nat),
      b0.toNat / 16 = 1 → b0.toNat / 2 % 4 ≠ 3 → isRlField f → s.req.holds (b0 :: (f ++ rest)) →
      cvhDecode restricted 1 rest = .ok (v, off2) →
      off2 = 10 ∧ execAt restricted .frameDec s = .next (s.okWith
        { Results.empty with
          rPtype := some 1
          rDup := some (b0.toNat / 8 % 2 == 1)
          rQos := some (BitVec.ofNat 2 (b0.toNat / 2 % 4))
          rRetain := some (b0.toNat % 2 == 1)
          rRlen := some (BitVec.ofNat 28 (digitsValue f))
          rVh := some true
          rPname := some ⟨0x4D, 0x51, 0x54, 0x54⟩
          rPlevel := some 4
          rClean := some v.connectFlags.cleanSession
          rWill := some v.connectFlags.willFlag
          rWqos := some v.connectFlags.willQos
          rWretain := some v.connectFlags.willRetain
          rPassword := some v.connectFlags.passwordFlag
          rUsername := some v.connectFlags.userNameFlag
          rKeepalive := some v.keepAlive
          rRemOff := some (1 + f.length + off2) })) ∧
    (∀ (s : State) (b0 hi lo : Byte) (f rest : List Byte), b0.toNat / 16 = 1 → b0.toNat / 2 % 4 ≠ 3 →
      isRlField f →
      s.req.holds (b0 :: (f ++ ([0x00, 0x04, 0x4D, 0x51, 0x54, 0x54, 0x04, 0x02, hi, lo] ++ rest))) →
      exec .frameDec s = .next (s.okWith
        { Results.empty with
          rPtype := some 1
          rDup := some (b0.toNat / 8 % 2 == 1)
          rQos := some (BitVec.ofNat 2 (b0.toNat / 2 % 4))
          rRetain := some (b0.toNat % 2 == 1)
          rRlen := some (BitVec.ofNat 28 (digitsValue f))
          rVh := some true
          rPname := some ⟨0x4D, 0x51, 0x54, 0x54⟩
          rPlevel := some 4
          rClean := some true
          rWill := some false
          rWqos := some 0
          rWretain := some false
          rPassword := some false
          rUsername := some false
          rKeepalive := some (BitVec.ofNat 16 (hi.toNat * 256 + lo.toNat))
          rRemOff := some (1 + f.length + 10) })) ∧
    (∀ (restricted : Bool) (s : State) (b0 : Byte) (f rest : List Byte) (e : Reason),
      b0.toNat / 16 = 1 → b0.toNat / 2 % 4 ≠ 3 → isRlField f → s.req.holds (b0 :: (f ++ rest)) →
      cvhDecode restricted 1 rest = .error e →
      execAt restricted .frameDec s = .next (s.failedWith (statusOf e))) ∧
    (∀ (restricted : Bool) (s : State) (b0 : Byte) (f rest : List Byte), b0.toNat / 16 = 1 →
      b0.toNat / 2 % 4 ≠ 3 → isRlField f → rest.length < 10 → s.req.holds (b0 :: (f ++ rest)) →
      execAt restricted .frameDec s = .next (s.failedWith 0x0101)) ∧
    ∀ (restricted : Bool) (s : State) (bs : List Byte) (e : Reason), s.req.holds bs →
      fhDecode bs = .error e → execAt restricted .frameDec s = .next (s.failedWith (statusOf e))

/-- R211: FRAME.ENC emits byte 0, the minimal field of IN_LEN and the body unchanged; A_QOS = 3 raises
INVALID_QOS_OPERAND, then a body longer than 268,435,455 bytes raises VALUE_OUT_OF_RANGE. -/
def Obligations.FrameEncEmitsHeaderAndBody : Prop :=
  (∀ (s : State) (body : List Byte), s.req.aQos ≠ 3 → body.length ≤ 268435455 → s.req.holds body →
      ∃ f, isRlEncoding body.length f ∧
        exec .frameEnc s = .next (s.okWith (Results.ofOut
          (BitVec.ofNat 8 (16 * s.req.aPtype.toNat + 8 * s.req.aDup.toNat + 2 * s.req.aQos.toNat +
            s.req.aRetain.toNat) :: (f ++ body))))) ∧
    (∀ s : State, s.req.aQos = 3 → s.req.inputPresent →
      exec .frameEnc s = .next (s.failedWith 0x3104)) ∧
    ∀ (s : State) (body : List Byte), s.req.aQos ≠ 3 → 268435455 < body.length → s.req.holds body →
      exec .frameEnc s = .next (s.failedWith 0x3004)

/-- R213: the frame round trip. A CONNECT header built by CVH.ENC, framed by FRAME.ENC as packet type 1 and
decoded by FRAME.DEC gives back dup, qos, retain, the record and keepAlive, with R_RLEN = 10 and
R_REM_OFF = 12; and any body framed as another packet type comes back as the remainder. -/
def Obligations.FrameRoundTrip : Prop :=
  (∀ (restricted : Bool) (s : State) (f : Byte) (c : ConnectFlags),
      cfEncode (flagsOperand s.req) = .ok f → cfDecode restricted f = .ok c → s.req.aQos ≠ 3 →
      ∃ t body u frame, exec .cvhEnc s = .next t ∧ readResult .out t = .ok (.bytes body) ∧
        exec .frameEnc { t with req := { t.req.withInput body with aPtype := 1 } } = .next u ∧
        readResult .out u = .ok (.bytes frame) ∧
        execAt restricted .frameDec { u with req := u.req.withInput frame } =
          .next (State.okWith { u with req := u.req.withInput frame }
            { Results.empty with
              rPtype := some 1
              rDup := some s.req.aDup
              rQos := some s.req.aQos
              rRetain := some s.req.aRetain
              rRlen := some 10
              rVh := some true
              rPname := some ⟨0x4D, 0x51, 0x54, 0x54⟩
              rPlevel := some 4
              rClean := some s.req.aClean
              rWill := some s.req.aWill
              rWqos := some s.req.aWqos
              rWretain := some s.req.aWretain
              rPassword := some s.req.aPassword
              rUsername := some s.req.aUsername
              rKeepalive := some s.req.aKeepalive
              rRemOff := some 12 })) ∧
    ∀ (restricted : Bool) (s : State) (body : List Byte), s.req.holds body → s.req.aPtype ≠ 1 →
      s.req.aQos ≠ 3 → body.length ≤ 268435455 →
      ∃ u frame off, exec .frameEnc s = .next u ∧ readResult .out u = .ok (.bytes frame) ∧
        execAt restricted .frameDec { u with req := u.req.withInput frame } =
          .next (State.okWith { u with req := u.req.withInput frame }
            { Results.empty with
              rPtype := some s.req.aPtype
              rDup := some s.req.aDup
              rQos := some s.req.aQos
              rRetain := some s.req.aRetain
              rRlen := some (BitVec.ofNat 28 body.length)
              rVh := some false
              rRemOff := some off }) ∧
        frame.drop off = body

/-! ## The host's side -/

/-- R75: a host action issues nothing to the block: STATUS and every result port stay as they are. -/
def Obligations.HostActionsChangeNoBlockState : Prop :=
  ∀ (bound : Option Nat) (prog : List Stmt) (st : Stmt) (h h' : HostState), st.isCommand = false →
    runStmt bound prog st h = .next h' →
      h'.inst.status = h.inst.status ∧ h'.inst.res = h.inst.res

/-- R74, R27: a condition that names a result port holding no value is a fault of the program, and so is a
host copy from one. -/
def Obligations.HostReadOfAnInvalidPortFaults : Prop :=
  ∀ (bound : Option Nat) (prog : List Stmt) (h : HostState) (p : RPort),
    readResult p h.inst = .error (.portHoldsNoValue p) →
      (∀ (equal : Bool) (const : PortValue) (l : Nat),
        runStmt bound prog (.branch ⟨.port p, equal, const⟩ l) h = .fault (.portHoldsNoValue p)) ∧
      ∀ a : APort, runStmt bound prog (.copy a p) h = .fault (.portHoldsNoValue p)
end

