-- ==== Sys2Proof/Laws/RemainingLength.lean ====
section
/-! SUPPORT. The Remaining Length codec against its wire format: every input of RLDecode is one of three
kinds, and RLEncode gives the minimal field (R83 to R86, R120, R121). -/

namespace Sys2Proof.Machine

/-! ## One byte -/

theorem rlDigit_eq (b : Byte) : rlDigit b = b.toNat % 128 := by
  simp [rlDigit, field, BitVec.extractLsb'_toNat]

theorem rlContinues_iff (b : Byte) : rlContinues b = true ↔ 128 ≤ b.toNat := by
  revert b; decide

theorem rlContinues_eq_false {b : Byte} (h : b.toNat < 128) : rlContinues b = false := by
  have := (rlContinues_iff b).not.2 (by omega)
  simpa using this

/-- A digit with its continuation bit (R83). -/
theorem digit_or_continue {d : Nat} (h : d < 128) :
    (BitVec.ofNat 8 d ||| 0x80#8).toNat = d + 128 := by
  revert d; decide

/-! ## Shape of the input -/

@[simp] theorem digitsValue_cons (b : Byte) (bs : List Byte) :
    digitsValue (b :: bs) = b.toNat % 128 + 128 * digitsValue bs := rfl

theorem allContinue_cons {b : Byte} {bs : List Byte} :
    allContinue (b :: bs) ↔ 128 ≤ b.toNat ∧ allContinue bs := by
  simp [allContinue]

theorem allContinue_nil : allContinue [] := by simp [allContinue]

/-- A field is its last byte alone, or a continuing byte before a shorter run and the last byte. -/
theorem isRlField_length {f : List Byte} (h : isRlField f) : 1 ≤ f.length ∧ f.length ≤ 4 := by
  obtain ⟨more, last, rfl, hl, -, -⟩ := h
  simp; omega

/-- What follows the leading continuing bytes: every input is a field and a rest, four continuing bytes
and a rest, or fewer than four bytes that all continue. -/
theorem rlInput_cases (bs : List Byte) :
    (∃ f rest, bs = f ++ rest ∧ isRlField f) ∨
      (∃ f rest, bs = f ++ rest ∧ allContinue f ∧ f.length = 4) ∨
      (allContinue bs ∧ bs.length < 4) := by
  suffices key : ∀ (n : Nat) (pre bs : List Byte), allContinue pre → pre.length + n = 4 →
      (∃ f rest, pre ++ bs = f ++ rest ∧ isRlField f) ∨
        (∃ f rest, pre ++ bs = f ++ rest ∧ allContinue f ∧ f.length = 4) ∨
        (allContinue (pre ++ bs) ∧ (pre ++ bs).length < 4) from
    key 4 [] bs allContinue_nil rfl
  intro n
  induction n with
  | zero => exact fun pre bs hp hl => .inr (.inl ⟨pre, bs, rfl, hp, hl⟩)
  | succ n ih =>
    intro pre bs hp hl
    cases bs with
    | nil => exact .inr (.inr ⟨by simpa using hp, by simp; omega⟩)
    | cons b bs =>
      by_cases hb : 128 ≤ b.toNat
      · have := ih (pre ++ [b]) bs
          (fun c hc => by
            rcases List.mem_append.1 hc with hc | hc
            · exact hp c hc
            · rw [List.mem_singleton.1 hc]; exact hb)
          (by simp; omega)
        simpa using this
      · exact .inl ⟨pre ++ [b], bs, by simp, pre, b, rfl, by omega, hp, by omega⟩

/-! ## RLDecode -/

theorem rlDecodeLoop_field (left value mult n : Nat) (more : List Byte) (last : Byte) (rest : List Byte)
    (hm : allContinue more) (hlast : last.toNat < 128) (hl : more.length < left) :
    rlDecodeLoop left value mult n (more ++ last :: rest) =
      .ok (value + mult * digitsValue (more ++ [last]), n + more.length + 1) := by
  induction more generalizing left value mult n with
  | nil =>
    obtain ⟨left, rfl⟩ : ∃ k, left = k + 1 := ⟨left - 1, by simp at hl; omega⟩
    simp [rlDecodeLoop, rlContinues_eq_false hlast, rlDigit_eq, digitsValue, Nat.mul_comm]
  | cons b more ih =>
    obtain ⟨left, rfl⟩ : ∃ k, left = k + 1 := ⟨left - 1, by simp at hl; omega⟩
    obtain ⟨hb, hm⟩ := allContinue_cons.1 hm
    simp only [List.cons_append, rlDecodeLoop, (rlContinues_iff b).2 hb, if_true]
    rw [ih _ _ _ _ hm (by simpa using hl)]
    simp only [rlDigit_eq, Config.rlDigitBase, digitsValue_cons, List.length_cons]
    congr 2
    · ring
    · omega

/-- RLDecode of a field, whatever follows it, is the field's value and length (R120). -/
theorem rlDecode_field {f : List Byte} (h : isRlField f) (rest : List Byte) :
    rlDecode (f ++ rest) = .ok (digitsValue f, f.length) := by
  obtain ⟨more, last, rfl, hl, hm, hlast⟩ := h
  have := rlDecodeLoop_field 4 0 1 0 more last rest hm hlast (by omega)
  simpa [rlDecode, Config.rlMaxBytes] using this

theorem rlDecodeLoop_continue (left value mult n : Nat) (f rest : List Byte) (hf : allContinue f)
    (hl : f.length ≤ left) :
    ∃ value' mult', rlDecodeLoop left value mult n (f ++ rest) =
      rlDecodeLoop (left - f.length) value' mult' (n + f.length) rest := by
  induction f generalizing left value mult n with
  | nil => exact ⟨value, mult, by simp⟩
  | cons b f ih =>
    obtain ⟨left, rfl⟩ : ∃ k, left = k + 1 := ⟨left - 1, by simp at hl; omega⟩
    obtain ⟨hb, hf⟩ := allContinue_cons.1 hf
    obtain ⟨v, m, e⟩ := ih left (value + rlDigit b * mult) (mult * Config.rlDigitBase) (n + 1) hf
      (by simpa using hl)
    refine ⟨v, m, ?_⟩
    simp only [List.cons_append, rlDecodeLoop, (rlContinues_iff b).2 hb, if_true, e,
      List.length_cons]
    congr 1 <;> omega

/-- Four continuing bytes are too long, whatever follows (R120). -/
theorem rlDecode_tooLong {f : List Byte} (hf : allContinue f) (hl : f.length = 4) (rest : List Byte) :
    rlDecode (f ++ rest) = .error .rlTooLong := by
  obtain ⟨v, m, e⟩ := rlDecodeLoop_continue 4 0 1 0 f rest hf (by omega)
  simp only [rlDecode, Config.rlMaxBytes, e, hl]
  rfl

/-- Fewer than four bytes that all continue run past the input (R120). -/
theorem rlDecode_short {f : List Byte} (hf : allContinue f) (hl : f.length < 4) :
    rlDecode f = .error .shortBuffer := by
  obtain ⟨v, m, e⟩ := rlDecodeLoop_continue 4 0 1 0 f [] hf (by omega)
  obtain ⟨k, hk⟩ : ∃ k, 4 - f.length = k + 1 := ⟨3 - f.length, by omega⟩
  rw [List.append_nil] at e
  simp only [rlDecode, Config.rlMaxBytes, e, hk]
  rfl

/-- Everything RLDecode can answer. -/
theorem rlDecode_ok_iff (bs : List Byte) (v n : Nat) :
    rlDecode bs = .ok (v, n) ↔
      ∃ f rest, bs = f ++ rest ∧ isRlField f ∧ v = digitsValue f ∧ n = f.length := by
  constructor
  · intro h
    rcases rlInput_cases bs with ⟨f, rest, rfl, hf⟩ | ⟨f, rest, rfl, hf, hl⟩ | ⟨hf, hl⟩
    · rw [rlDecode_field hf] at h
      simp only [Except.ok.injEq, Prod.mk.injEq] at h
      exact ⟨f, rest, rfl, hf, h.1.symm, h.2.symm⟩
    · rw [rlDecode_tooLong hf hl] at h; exact absurd h (by simp)
    · rw [rlDecode_short hf hl] at h; exact absurd h (by simp)
  · rintro ⟨f, rest, rfl, hf, rfl, rfl⟩
    exact rlDecode_field hf rest

theorem rlDecode_error {bs : List Byte} {e : Reason} (h : rlDecode bs = .error e) :
    e = .shortBuffer ∨ e = .rlTooLong := by
  rcases rlInput_cases bs with ⟨f, rest, rfl, hf⟩ | ⟨f, rest, rfl, hf, hl⟩ | ⟨hf, hl⟩
  · rw [rlDecode_field hf] at h; exact absurd h (by simp)
  · rw [rlDecode_tooLong hf hl] at h
    exact .inr (Except.error.inj h).symm
  · rw [rlDecode_short hf hl] at h
    exact .inl (Except.error.inj h).symm

/-! ## The range of a field (R125) -/

theorem digitsValue_lt (bs : List Byte) : digitsValue bs < 128 ^ bs.length := by
  induction bs with
  | nil => simp [digitsValue]
  | cons b bs ih =>
    simp only [digitsValue_cons, List.length_cons, Nat.pow_succ]
    have := Nat.mod_lt b.toNat (show 0 < 128 by omega)
    omega

/-- The accumulator never exceeds 2^28 - 1 (R125). -/
theorem digitsValue_field_lt {f : List Byte} (h : isRlField f) : digitsValue f < 2 ^ 28 := by
  have h1 := digitsValue_lt f
  have h2 : 128 ^ f.length ≤ 128 ^ 4 := Nat.pow_le_pow_right (by omega) (isRlField_length h).2
  have h3 : (128 : Nat) ^ 4 = 2 ^ 28 := by norm_num
  omega

/-! ## RLEncode -/

theorem rlEncodeLoop_step (left v : Nat) (h : 128 ≤ v) :
    rlEncodeLoop (left + 1) v =
      (BitVec.ofNat 8 (v % 128) ||| 0x80#8) :: rlEncodeLoop left (v / 128) := by
  have h1 : v / Config.rlDigitBase > 0 := by
    simp only [Config.rlDigitBase]; omega
  rw [rlEncodeLoop, if_pos h1]
  rfl

theorem rlEncodeLoop_last (left v : Nat) (h : v < 128) :
    rlEncodeLoop (left + 1) v = [BitVec.ofNat 8 v] := by
  have h1 : ¬ v / Config.rlDigitBase > 0 := by
    simp only [Config.rlDigitBase]; omega
  rw [rlEncodeLoop, if_neg h1]
  simp [Config.rlDigitBase, Nat.mod_eq_of_lt h]

/-- The digits of a value that `left` bytes can carry. -/
theorem rlEncodeLoop_spec (left v : Nat) (h : v < 128 ^ (left + 1)) :
    ∃ more last, rlEncodeLoop (left + 1) v = more ++ [last] ∧ more.length ≤ left ∧ allContinue more ∧
      last.toNat < 128 ∧ digitsValue (more ++ [last]) = v ∧ (more = [] ∨ last ≠ 0) := by
  induction left generalizing v with
  | zero =>
    have hv : v < 128 := by simpa using h
    refine ⟨[], BitVec.ofNat 8 v, by simpa using rlEncodeLoop_last 0 v hv, by simp, allContinue_nil, ?_, ?_,
      .inl rfl⟩
    · simp; omega
    · simp [digitsValue]; omega
  | succ left ih =>
    by_cases hv : v < 128
    · refine ⟨[], BitVec.ofNat 8 v, by simpa using rlEncodeLoop_last (left + 1) v hv, by simp,
        allContinue_nil, ?_, ?_, .inl rfl⟩
      · simp; omega
      · simp [digitsValue]; omega
    · have hv' : v / 128 < 128 ^ (left + 1) := by
        rw [Nat.div_lt_iff_lt_mul (by omega), ← Nat.pow_succ]; exact h
      obtain ⟨more, last, e, hl, hm, hlast, hd, hz⟩ := ih (v / 128) hv'
      have hb := digit_or_continue (Nat.mod_lt v (show 0 < 128 by omega))
      refine ⟨(BitVec.ofNat 8 (v % 128) ||| 0x80#8) :: more, last, ?_, by simp; omega, ?_, hlast, ?_, ?_⟩
      · rw [rlEncodeLoop_step _ _ (by omega), e, List.cons_append]
      · exact allContinue_cons.2 ⟨by omega, hm⟩
      · rw [List.cons_append, digitsValue_cons, hd, hb]; omega
      · right
        rcases hz with rfl | hz
        · rintro rfl
          simp [digitsValue] at hd
          omega
        · exact hz

theorem digitsValue_append (f g : List Byte) :
    digitsValue (f ++ g) = digitsValue f + 128 ^ f.length * digitsValue g := by
  induction f with
  | nil => simp [digitsValue]
  | cons b f ih => simp only [List.cons_append, digitsValue_cons, ih, List.length_cons]; ring

/-- A minimal field of more than one byte carries at least 128^(n-1): its length is R123's. -/
theorem length_of_minimal {f : List Byte} (hf : isRlField f) (hm : isMinimal f) :
    f.length = rlLength (digitsValue f) := by
  obtain ⟨more, last, rfl, hl, -, hlast⟩ := hf
  have hlt := digitsValue_lt (more ++ [last])
  have hge : more.length = 0 ∨ 128 ^ more.length ≤ digitsValue (more ++ [last]) := by
    rcases hm with h | h
    · left; simpa using h
    · right
      have : last.toNat ≠ 0 := by
        intro h0
        exact h (by simpa using BitVec.eq_of_toNat_eq (by simpa using h0))
      rw [digitsValue_append]
      have h1 : 1 ≤ digitsValue [last] := by simp [digitsValue]; omega
      calc 128 ^ more.length = 128 ^ more.length * 1 := by simp
        _ ≤ 128 ^ more.length * digitsValue [last] := Nat.mul_le_mul_left _ h1
        _ ≤ _ := Nat.le_add_left _ _
  simp only [List.length_append, List.length_singleton] at hlt ⊢
  generalize digitsValue (more ++ [last]) = v at hlt hge
  generalize more.length = k at hl hlt hge
  unfold rlLength
  interval_cases k <;> norm_num at hlt hge <;> split_ifs <;> omega

/-- RLEncode of a value in range is its minimal field (R121, R123). -/
theorem rlEncode_spec {v : Nat} (h : v ≤ 268435455) :
    ∃ f, rlEncode v = .ok f ∧ isRlEncoding v f := by
  obtain ⟨more, last, e, hl, hm, hlast, hd, hz⟩ := rlEncodeLoop_spec 3 v (by norm_num; omega)
  have hf : isRlField (more ++ [last]) := ⟨more, last, rfl, hl, hm, hlast⟩
  have hmin : isMinimal (more ++ [last]) := by
    rcases hz with rfl | hz
    · exact .inl rfl
    · exact .inr (by simpa using hz)
  refine ⟨more ++ [last], ?_, hf, hmin, hd, ?_⟩
  · have : ¬ v > Config.rlMaxValue := by simp only [Config.rlMaxValue]; omega
    rw [rlEncode, if_neg this, ← e]; rfl
  · rw [length_of_minimal hf hmin, hd]

theorem rlEncode_tooBig {v : Nat} (h : 268435455 < v) : rlEncode v = .error .valueOutOfRange := by
  rw [rlEncode, if_pos (by simpa only [Config.rlMaxValue] using h)]

/-- Two fields of one length with the same value are the same bytes (R83). -/
theorem rlField_ext {f g : List Byte} (hf : isRlField f) (hg : isRlField g)
    (hl : f.length = g.length) (hv : digitsValue f = digitsValue g) : f = g := by
  obtain ⟨m, a, rfl, -, hm, ha⟩ := hf
  obtain ⟨n, b, rfl, -, hn, hb⟩ := hg
  simp only [List.length_append, List.length_singleton, Nat.add_right_cancel_iff] at hl
  induction m generalizing n with
  | nil =>
    obtain rfl : n = [] := List.length_eq_zero_iff.1 hl.symm
    have : a.toNat = b.toNat := by simp [digitsValue] at hv; omega
    rw [BitVec.eq_of_toNat_eq this]
  | cons c m ih =>
    cases n with
    | nil => simp at hl
    | cons d n =>
      obtain ⟨hc, hm⟩ := allContinue_cons.1 hm
      obtain ⟨hd, hn⟩ := allContinue_cons.1 hn
      simp only [List.cons_append, digitsValue_cons] at hv
      have hcd : c.toNat = d.toNat := by
        have := c.isLt; have := d.isLt; omega
      rw [List.cons_append, List.cons_append, BitVec.eq_of_toNat_eq hcd,
        ih hm n (by omega) hn (by simpa using hl)]

end Sys2Proof.Machine
end

