-- ==== Sys2Proof/Laws/Headers.lean ====
section
/-! SUPPORT. The Fixed Header, Connect Flags and CONNECT header codecs against their wire formats (R80,
R87, R88, R140, R141, R160, R161, R180, R181). -/

namespace Sys2Proof.Machine

/-! ## Bits and fields as numbers (R7, R92) -/

theorem bitAt_eq (b : Byte) (i : Nat) : bitAt b i = (b.toNat / 2 ^ i % 2 == 1) := by
  simp only [bitAt, BitVec.getLsbD, Nat.testBit_eq_decide_div_mod_eq]
  rw [Bool.eq_iff_iff]; simp

theorem field_eq (b : Byte) (lo w : Nat) : field b lo w = BitVec.ofNat w (b.toNat / 2 ^ lo) := by
  apply BitVec.eq_of_toNat_eq
  simp [field, BitVec.extractLsb'_toNat, Nat.shiftRight_eq_div_pow]

theorem isReservedQos_iff (q : BitVec 2) : isReservedQos q = true ↔ q = 3 := by
  simp [isReservedQos]

theorem isReservedQos_eq_false {q : BitVec 2} (h : q ≠ 3) : isReservedQos q = false := by
  simpa [isReservedQos] using h

theorem toNat_le_two_of_ne {q : BitVec 2} (h : q ≠ 3) : q.toNat ≤ 2 := by
  revert q; decide

/-- The QoS code of Fixed Header byte 0 (R80). -/
theorem qosField_eq_three_iff (b : Byte) : field b 1 2 = 3 ↔ b.toNat / 2 % 4 = 3 := by
  revert b; decide

/-- The willQoS code of a Connect Flags byte (R88). -/
theorem wqosField_eq_three_iff (b : Byte) : field b 3 2 = 3 ↔ b.toNat / 8 % 4 = 3 := by
  revert b; decide

/-! ## Fixed Header -/

/-- The header byte 0 and a field carry (R80, R92). -/
def headerOf (b0 : Byte) (f : List Byte) : FixedHeader where
  packetType := field b0 4 4
  dup := bitAt b0 3
  qos := field b0 1 2
  retain := bitAt b0 0
  remainingLength := digitsValue f

/-- FHDecode of a byte 0 with a valid QoS code and a field, whatever follows (R140). -/
theorem fhDecode_field {b0 : Byte} {f : List Byte} (hq : b0.toNat / 2 % 4 ≠ 3) (hf : isRlField f)
    (rest : List Byte) : fhDecode (b0 :: (f ++ rest)) = .ok (headerOf b0 f, 1 + f.length) := by
  have h1 := isRlField_length hf
  have hq' := isReservedQos_eq_false ((qosField_eq_three_iff b0).not.2 hq)
  have hd := rlDecode_field hf rest
  cases f with
  | nil => simp at h1
  | cons b1 f =>
    rw [List.cons_append] at hd ⊢
    simp [fhDecode, hq', hd, headerOf]

/-- Fewer than two bytes (R140). -/
theorem fhDecode_short {bs : List Byte} (h : bs.length < 2) : fhDecode bs = .error .shortBuffer := by
  match bs, h with
  | [], _ => rfl
  | [_], _ => rfl

/-- QoS code 3 is tested before the Remaining Length field (R140). -/
theorem fhDecode_reservedQos {b0 : Byte} (h : b0.toNat / 2 % 4 = 3) (b1 : Byte) (rest : List Byte) :
    fhDecode (b0 :: b1 :: rest) = .error .reservedQos := by
  simp [fhDecode, (isReservedQos_iff _).2 ((qosField_eq_three_iff b0).2 h)]

/-- The field's error is FHDecode's (R240). -/
theorem fhDecode_fieldError {b0 b1 : Byte} {bs : List Byte} {e : Reason} (hq : b0.toNat / 2 % 4 ≠ 3)
    (he : rlDecode (b1 :: bs) = .error e) : fhDecode (b0 :: b1 :: bs) = .error e := by
  simp [fhDecode, isReservedQos_eq_false ((qosField_eq_three_iff b0).not.2 hq), he]

/-- Everything FHDecode can answer. -/
theorem fhDecode_ok_iff (bs : List Byte) (h : FixedHeader) (off : Nat) :
    fhDecode bs = .ok (h, off) ↔
      ∃ b0 f rest, bs = b0 :: (f ++ rest) ∧ b0.toNat / 2 % 4 ≠ 3 ∧ isRlField f ∧ h = headerOf b0 f ∧
        off = 1 + f.length := by
  constructor
  · intro e
    match bs, e with
    | [], e => exact absurd e (by simp [fhDecode])
    | [_], e => exact absurd e (by simp [fhDecode])
    | b0 :: b1 :: bs, e =>
      by_cases hq : b0.toNat / 2 % 4 = 3
      · rw [fhDecode_reservedQos hq] at e; exact absurd e (by simp)
      · cases hd : rlDecode (b1 :: bs) with
        | error r => rw [fhDecode_fieldError hq hd] at e; exact absurd e (by simp)
        | ok p =>
          obtain ⟨v, n⟩ := p
          obtain ⟨f, rest, hbs, hf, -, -⟩ := (rlDecode_ok_iff _ _ _).1 hd
          rw [hbs, fhDecode_field hq hf rest] at e
          simp only [Except.ok.injEq, Prod.mk.injEq] at e
          exact ⟨b0, f, rest, by rw [hbs], hq, hf, e.1.symm, e.2.symm⟩
  · rintro ⟨b0, f, rest, rfl, hq, hf, rfl, rfl⟩
    exact fhDecode_field hq hf rest

theorem fhDecode_error {bs : List Byte} {e : Reason} (h : fhDecode bs = .error e) :
    e = .shortBuffer ∨ e = .reservedQos ∨ e = .rlTooLong := by
  match bs, h with
  | [], h => exact .inl (Except.error.inj h).symm
  | [_], h => exact .inl (Except.error.inj h).symm
  | b0 :: b1 :: bs, h =>
    by_cases hq : b0.toNat / 2 % 4 = 3
    · rw [fhDecode_reservedQos hq] at h
      exact .inr (.inl (Except.error.inj h).symm)
    · cases hd : rlDecode (b1 :: bs) with
      | ok p =>
        obtain ⟨f, rest, hbs, hf, -, -⟩ := (rlDecode_ok_iff _ p.1 p.2).1 hd
        rw [hbs, fhDecode_field hq hf rest] at h
        exact absurd h (by simp)
      | error r =>
        rw [fhDecode_fieldError hq hd] at h
        obtain rfl := Except.error.inj h
        rcases rlDecode_error hd with h | h
        · exact .inl h
        · exact .inr (.inr h)

/-- Byte 0 as a number: its fields do not overlap (R80, R92). -/
theorem fhByte0_eq (pt : BitVec 4) (dup : Bool) (qos : BitVec 2) (retain : Bool) :
    fhByte0 pt dup qos retain =
      BitVec.ofNat 8 (16 * pt.toNat + 8 * dup.toNat + 2 * qos.toNat + retain.toNat) := by
  revert pt dup qos retain; decide

/-- The fields read back from an encoded byte 0 (R80). -/
theorem headerOf_fhByte0 (pt : BitVec 4) (dup : Bool) (qos : BitVec 2) (retain : Bool) (f : List Byte) :
    headerOf (fhByte0 pt dup qos retain) f = ⟨pt, dup, qos, retain, digitsValue f⟩ := by
  have key : ∀ (pt : BitVec 4) (dup : Bool) (qos : BitVec 2) (retain : Bool),
      field (fhByte0 pt dup qos retain) 4 4 = pt ∧ bitAt (fhByte0 pt dup qos retain) 3 = dup ∧
        field (fhByte0 pt dup qos retain) 1 2 = qos ∧ bitAt (fhByte0 pt dup qos retain) 0 = retain := by
    decide
  obtain ⟨h1, h2, h3, h4⟩ := key pt dup qos retain
  simp [headerOf, h1, h2, h3, h4]

theorem qosCode_fhByte0 {qos : BitVec 2} (h : qos ≠ 3) (pt : BitVec 4) (dup retain : Bool) :
    (fhByte0 pt dup qos retain).toNat / 2 % 4 ≠ 3 := by
  revert pt dup qos retain; decide

/-- FHEncode of a valid header (R141). -/
theorem fhEncode_spec {qos : BitVec 2} {v : Nat} (hq : qos ≠ 3) (hv : v ≤ 268435455) (pt : BitVec 4)
    (dup retain : Bool) :
    ∃ f, fhEncode pt dup qos retain v = .ok (fhByte0 pt dup qos retain :: f) ∧ isRlEncoding v f := by
  obtain ⟨f, e, hf⟩ := rlEncode_spec hv
  exact ⟨f, by simp [fhEncode, isReservedQos_eq_false hq, e], hf⟩

theorem fhEncode_qosThree (pt : BitVec 4) (dup retain : Bool) (v : Nat) :
    fhEncode pt dup 3 retain v = .error .invalidQosOperand := by
  simp [fhEncode, isReservedQos]

theorem fhEncode_tooBig {qos : BitVec 2} {v : Nat} (hq : qos ≠ 3) (hv : 268435455 < v) (pt : BitVec 4)
    (dup retain : Bool) : fhEncode pt dup qos retain v = .error .valueOutOfRange := by
  simp [fhEncode, isReservedQos_eq_false hq, rlEncode_tooBig hv]

/-! ## Connect Flags -/

/-- What an accepted flags byte decodes to: always its fields (R160). -/
theorem cfDecode_ok {restricted : Bool} {f : Byte} {c : ConnectFlags}
    (h : cfDecode restricted f = .ok c) : c = cfFields f ∧ c.willQos ≠ 3 := by
  unfold cfDecode at h
  split at h
  · exact absurd h (by simp)
  · split at h
    · exact absurd h (by simp)
    · rename_i hq
      rw [isReservedQos_iff] at hq
      split at h
      · split at h
        · exact absurd h (by simp)
        · obtain rfl := Except.ok.inj h; exact ⟨rfl, hq⟩
      · obtain rfl := Except.ok.inj h; exact ⟨rfl, hq⟩

theorem cfDecode_error {restricted : Bool} {f : Byte} {e : Reason}
    (h : cfDecode restricted f = .error e) :
    e = .reservedFlagBit ∨ e = .reservedQos ∨ (restricted = true ∧ e ∈ restrictedReasons) := by
  unfold cfDecode at h
  split at h
  · exact .inl (Except.error.inj h).symm
  · split at h
    · exact .inr (.inl (Except.error.inj h).symm)
    · split at h
      · rename_i hr
        split at h
        · rename_i d hd
          obtain rfl := Except.error.inj h
          refine .inr (.inr ⟨hr, ?_⟩)
          unfold cfFirstViolation at hd
          split_ifs at hd <;> cases hd <;> decide
        · exact absurd h (by simp)
      · exact absurd h (by simp)

/-- The flags byte as a number (R88, R92). -/
theorem cfByte_eq (c : ConnectFlags) :
    cfByte c = BitVec.ofNat 8 (128 * c.userNameFlag.toNat + 64 * c.passwordFlag.toNat +
      32 * c.willRetain.toNat + 8 * c.willQos.toNat + 4 * c.willFlag.toNat + 2 * c.cleanSession.toNat) := by
  obtain ⟨a, b, q, d, e, g⟩ := c
  revert a b q d e g
  decide

/-- The fields of an encoded flags byte are the record (R88). -/
theorem cfFields_cfByte (c : ConnectFlags) : cfFields (cfByte c) = c ∧ bitAt (cfByte c) 0 = false := by
  obtain ⟨a, b, q, d, e, g⟩ := c
  revert a b q d e g
  decide

/-- A flags byte with bit 0 = 0 is the encoding of its fields (R88). -/
theorem cfByte_cfFields {f : Byte} (h : bitAt f 0 = false) : cfByte (cfFields f) = f := by
  revert f; decide

theorem cfEncode_ok_iff (c : ConnectFlags) (f : Byte) :
    cfEncode c = .ok f ↔ c.willQos ≠ 3 ∧ f = cfByte c := by
  unfold cfEncode
  by_cases h : c.willQos = 3
  · simp [h, isReservedQos]
  · rw [isReservedQos_eq_false h, if_neg (by simp), Except.ok.injEq, eq_comm]
    exact ⟨fun e => ⟨h, e⟩, fun e => e.2⟩

theorem cfEncode_error {c : ConnectFlags} {e : Reason} (h : cfEncode c = .error e) :
    e = .invalidQosOperand := by
  unfold cfEncode at h
  split at h
  · exact (Except.error.inj h).symm
  · exact absurd h (by simp)

/-! ## CONNECT Variable Header -/

/-- keepAlive is carried whole (R54, R92). -/
theorem keepAliveOf_bytes (k : BitVec 16) : keepAliveOf (k.extractLsb' 8 8) (k.extractLsb' 0 8) = k := by
  apply BitVec.eq_of_toNat_eq
  have := k.isLt
  simp [keepAliveOf, BitVec.extractLsb'_toNat, Nat.shiftRight_eq_div_pow]
  omega

theorem cvhBytes_eq (f : Byte) (k : BitVec 16) :
    cvhBytes f k = [0x00, 0x04, 0x4D, 0x51, 0x54, 0x54, 0x04, f, BitVec.ofNat 8 (k.toNat / 256),
      BitVec.ofNat 8 (k.toNat % 256)] := by
  have h1 : k.extractLsb' 8 8 = BitVec.ofNat 8 (k.toNat / 256) := by
    apply BitVec.eq_of_toNat_eq
    simp [BitVec.extractLsb'_toNat, Nat.shiftRight_eq_div_pow]
  have h0 : k.extractLsb' 0 8 = BitVec.ofNat 8 (k.toNat % 256) := by
    apply BitVec.eq_of_toNat_eq
    simp [BitVec.extractLsb'_toNat]
  rw [cvhBytes, h1, h0]; rfl

theorem cvhDecode_wrongType {pt : BitVec 4} (h : pt ≠ 1) (restricted : Bool) (bs : List Byte) :
    cvhDecode restricted pt bs = .error .wrongPacketType := by
  unfold cvhDecode
  rw [if_pos (show pt ≠ Config.ptConnect from h)]

theorem cvhDecode_short {bs : List Byte} (h : bs.length < 10) (restricted : Bool) :
    cvhDecode restricted 1 bs = .error .shortBuffer := by
  unfold cvhDecode
  rw [if_neg (show ¬ (1 : BitVec 4) ≠ Config.ptConnect by decide)]
  split
  · simp only [List.length_cons] at h; omega
  · rfl

/-- With ten bytes present, CVHDecode is its steps 2 to 6 over them, whatever follows (R180). -/
theorem cvhDecode_ten (restricted : Bool) (b0 b1 b2 b3 b4 b5 level flags hi lo : Byte)
    (rest : List Byte) :
    cvhDecode restricted 1 (b0 :: b1 :: b2 :: b3 :: b4 :: b5 :: level :: flags :: hi :: lo :: rest) =
      (match cvhDecodeBody restricted [b0, b1, b2, b3, b4, b5] level flags hi lo with
        | .error e => .error e
        | .ok h => .ok (h, 10)) := by
  unfold cvhDecode
  rw [if_neg (show ¬ (1 : BitVec 4) ≠ Config.ptConnect by decide)]
  dsimp only
  cases cvhDecodeBody restricted [b0, b1, b2, b3, b4, b5] level flags hi lo <;> rfl

/-- Ten or more bytes are ten bytes and a rest. -/
theorem exists_ten {bs : List Byte} (h : 10 ≤ bs.length) :
    ∃ b0 b1 b2 b3 b4 b5 level flags hi lo rest,
      bs = b0 :: b1 :: b2 :: b3 :: b4 :: b5 :: level :: flags :: hi :: lo :: rest := by
  match bs, h with
  | b0 :: b1 :: b2 :: b3 :: b4 :: b5 :: level :: flags :: hi :: lo :: rest, _ =>
    exact ⟨b0, b1, b2, b3, b4, b5, level, flags, hi, lo, rest, rfl⟩

/-- With a right name and level, the flags byte decides (R180 step 4). -/
theorem cvhDecode_flags (restricted : Bool) (f hi lo : Byte) (rest : List Byte) :
    cvhDecode restricted 1 ([0x00, 0x04, 0x4D, 0x51, 0x54, 0x54, 0x04, f, hi, lo] ++ rest) =
      (match cfDecode restricted f with
        | .error e => .error e
        | .ok c => .ok (⟨c, keepAliveOf hi lo⟩, 10)) := by
  simp only [List.cons_append, List.nil_append, cvhDecode_ten, cvhDecodeBody]
  rw [if_neg (by decide), if_neg (by decide)]
  cases cfDecode restricted f <;> rfl

/-- Everything CVHDecode can answer. -/
theorem cvhDecode_ok {restricted : Bool} {pt : BitVec 4} {bs : List Byte} {h : ConnectHeader} {off : Nat}
    (e : cvhDecode restricted pt bs = .ok (h, off)) :
    pt = 1 ∧ off = 10 ∧ ∃ f hi lo rest,
      bs = [0x00, 0x04, 0x4D, 0x51, 0x54, 0x54, 0x04, f, hi, lo] ++ rest ∧
        cfDecode restricted f = .ok h.connectFlags ∧ h.keepAlive = keepAliveOf hi lo := by
  by_cases hpt : pt = 1
  · subst hpt
    by_cases hl : bs.length < 10
    · rw [cvhDecode_short hl] at e; exact absurd e (by simp)
    · obtain ⟨b0, b1, b2, b3, b4, b5, level, flags, hi, lo, rest, rfl⟩ := exists_ten (Nat.le_of_not_lt hl)
      rw [cvhDecode_ten] at e
      unfold cvhDecodeBody at e
      split_ifs at e with h1 h2
      · have h1 := Decidable.not_not.1 h1
        have h2 := Decidable.not_not.1 h2
        simp only [Config.protocolNamePrefix, List.cons.injEq, and_true] at h1
        obtain ⟨rfl, rfl, rfl, rfl, rfl, rfl⟩ := h1
        subst h2
        cases hc : cfDecode restricted flags with
        | error r => simp [hc] at e
        | ok c =>
          simp only [hc, Except.ok.injEq, Prod.mk.injEq] at e
          obtain ⟨rfl, rfl⟩ := e
          exact ⟨rfl, rfl, flags, hi, lo, rest, rfl, hc, rfl⟩
  · rw [cvhDecode_wrongType hpt] at e; exact absurd e (by simp)

theorem cvhDecode_error {restricted : Bool} {pt : BitVec 4} {bs : List Byte} {r : Reason}
    (e : cvhDecode restricted pt bs = .error r) :
    (r = .wrongPacketType ∧ pt ≠ 1) ∨ r = .shortBuffer ∨ r = .badProtocolName ∨
      r = .unsupportedProtocolLevel ∨ ∃ f, cfDecode restricted f = .error r := by
  by_cases hpt : pt = 1
  · subst hpt
    by_cases hl : bs.length < 10
    · rw [cvhDecode_short hl] at e
      exact .inr (.inl (Except.error.inj e).symm)
    · obtain ⟨b0, b1, b2, b3, b4, b5, level, flags, hi, lo, rest, rfl⟩ := exists_ten (Nat.le_of_not_lt hl)
      rw [cvhDecode_ten] at e
      unfold cvhDecodeBody at e
      split_ifs at e with h1 h2
      · exact .inr (.inr (.inl (Except.error.inj e).symm))
      · exact .inr (.inr (.inr (.inl (Except.error.inj e).symm)))
      · cases hc : cfDecode restricted flags with
        | ok c => simp [hc] at e
        | error d =>
          simp only [hc, Except.error.injEq] at e
          exact .inr (.inr (.inr (.inr ⟨flags, by rw [hc, e]⟩)))
  · rw [cvhDecode_wrongType hpt] at e
    exact .inl ⟨(Except.error.inj e).symm, hpt⟩

end Sys2Proof.Machine
end

