-- ==== Sys2Proof/Laws/Memory.lean ====
section
/-! SUPPORT. The laws of a byte space: what a write changes, that it keeps the canonical form, and what a
space that holds a sequence reads as. -/

namespace Sys2Proof.Machine

/-! ## Writes -/

/-- A read after a write to the same index gives the byte written. -/
theorem read_write_same (m : Memory) (i : Nat) (v : Byte) :
    Memory.read (Memory.write m i v) i = some v := by
  induction m with
  | nil => simp [Memory.write, Memory.read]
  | cons c m ih =>
    obtain ⟨a, b⟩ := c
    simp only [Memory.write]
    split
    · simp [Memory.read]
    · split
      · simp [Memory.read]
      · rename_i h1 h2
        simp [Memory.read, Ne.symm h2, ih]

/-- A write leaves every other index alone. -/
theorem read_write_other (m : Memory) (i j : Nat) (v : Byte) (h : j ≠ i) :
    Memory.read (Memory.write m i v) j = Memory.read m j := by
  induction m with
  | nil => simp [Memory.write, Memory.read, Ne.symm h]
  | cons c m ih =>
    obtain ⟨a, b⟩ := c
    simp only [Memory.write]
    split
    · simp [Memory.read, Ne.symm h]
    · split
      · rename_i h2
        subst h2
        simp [Memory.read, Ne.symm h]
      · simp [Memory.read, ih]

/-- The indices of a written space are the old ones and the index written. -/
theorem mem_write {m : Memory} {i : Nat} {v : Byte} {c : Host.Cell} (h : c ∈ Memory.write m i v) :
    c = (i, v) ∨ c ∈ m := by
  induction m with
  | nil => simpa [Memory.write] using h
  | cons d m ih =>
    obtain ⟨a, b⟩ := d
    simp only [Memory.write] at h
    split at h
    · simpa using h
    · split at h
      · rcases List.mem_cons.1 h with h | h
        · exact .inl h
        · exact .inr (List.mem_cons_of_mem _ h)
      · rcases List.mem_cons.1 h with h | h
        · exact .inr (h ▸ List.mem_cons_self)
        · exact (ih h).imp_right (List.mem_cons_of_mem _)

/-- A write keeps the canonical form. -/
theorem write_wf {m : Memory} (hm : Memory.wf m) (i : Nat) (v : Byte) :
    Memory.wf (Memory.write m i v) := by
  induction m with
  | nil => simp [Memory.write, Memory.wf]
  | cons c m ih =>
    obtain ⟨a, b⟩ := c
    obtain ⟨hc, hm'⟩ := List.pairwise_cons.1 hm
    simp only [Memory.write]
    split
    · rename_i h
      refine List.pairwise_cons.2 ⟨fun d hd => ?_, hm⟩
      rcases List.mem_cons.1 hd with rfl | hd
      · exact h
      · exact Nat.lt_trans h (hc d hd)
    · split
      · rename_i _ h
        subst h
        exact List.pairwise_cons.2 ⟨hc, hm'⟩
      · refine List.pairwise_cons.2 ⟨fun d hd => ?_, ih hm'⟩
        rcases mem_write hd with rfl | hd
        · simp only; omega
        · exact hc d hd

/-! ## A space that holds a sequence -/

/-- Reading a space that holds `bs` from index `k` on. -/
theorem read_ofBytesFrom (k : Nat) (bs : List Byte) (i : Nat) :
    Memory.read (Memory.ofBytesFrom k bs) i = if k ≤ i then bs[i - k]? else none := by
  induction bs generalizing k with
  | nil => simp [Memory.ofBytesFrom, Memory.read]
  | cons b bs ih =>
    simp only [Memory.ofBytesFrom, Memory.read, ih]
    by_cases h : k = i
    · subst h; simp
    · by_cases h2 : k ≤ i
      · have e : i - k = (i - (k + 1)) + 1 := by omega
        simp [h, h2, show k + 1 ≤ i by omega, e]
      · simp [h, h2, show ¬ k + 1 ≤ i by omega]

/-- A space that holds `bs` reads as `bs`, and as no byte beyond it (R51). -/
@[simp] theorem read_ofBytes (bs : List Byte) (i : Nat) :
    Memory.read (Memory.ofBytes bs) i = bs[i]? := by
  simp [Memory.ofBytes, read_ofBytesFrom]

/-- Every cell of such a space lies at or after `k`. -/
theorem le_of_mem_ofBytesFrom {k : Nat} {bs : List Byte} {c : Host.Cell}
    (h : c ∈ Memory.ofBytesFrom k bs) : k ≤ c.1 := by
  induction bs generalizing k with
  | nil => simp [Memory.ofBytesFrom] at h
  | cons b bs ih =>
    rcases List.mem_cons.1 h with rfl | h
    · exact Nat.le_refl k
    · exact Nat.le_of_succ_le (ih h)

theorem ofBytesFrom_wf (k : Nat) (bs : List Byte) : Memory.wf (Memory.ofBytesFrom k bs) := by
  induction bs generalizing k with
  | nil => exact List.Pairwise.nil
  | cons b bs ih =>
    exact List.pairwise_cons.2 ⟨fun c hc => le_of_mem_ofBytesFrom hc, ih (k + 1)⟩

/-- A space that holds a sequence is in canonical form. -/
theorem ofBytes_wf (bs : List Byte) : Memory.wf (Memory.ofBytes bs) := ofBytesFrom_wf 0 bs

/-- Writing just after a held sequence appends to it. -/
theorem write_ofBytesFrom_end (k : Nat) (bs : List Byte) (v : Byte) :
    Memory.write (Memory.ofBytesFrom k bs) (k + bs.length) v = Memory.ofBytesFrom k (bs ++ [v]) := by
  induction bs generalizing k with
  | nil => simp [Memory.ofBytesFrom, Memory.write]
  | cons b bs ih =>
    have e := ih (k + 1)
    rw [show k + 1 + bs.length = k + (b :: bs).length by simp; omega] at e
    simp only [Memory.ofBytesFrom, List.cons_append, Memory.write, e]
    rw [if_neg (by simp), if_neg (by simp)]

/-! ## Windows and the snapshot of IN -/

theorem readFrom_eq_some_iff (m : Memory) (i k : Nat) (bs : List Byte) :
    Memory.readFrom m i k = some bs ↔
      bs.length = k ∧ ∀ j, j < k → Memory.read m (i + j) = bs[j]? := by
  induction k generalizing i bs with
  | zero => cases bs <;> simp [Memory.readFrom]
  | succ k ih =>
    simp only [Memory.readFrom]
    constructor
    · intro h
      split at h
      · exact absurd h (by simp)
      · rename_i b hb
        split at h
        · exact absurd h (by simp)
        · rename_i cs hcs
          obtain ⟨hl, hr⟩ := (ih (i + 1) cs).1 hcs
          obtain rfl := Option.some.inj h
          refine ⟨by simp [hl], fun j hj => ?_⟩
          cases j with
          | zero => simpa using hb
          | succ j =>
            have := hr j (by omega)
            rw [show i + 1 + j = i + (j + 1) by omega] at this
            simpa using this
    · rintro ⟨hl, hr⟩
      cases bs with
      | nil => simp at hl
      | cons b bs =>
        have h0 := hr 0 (by omega)
        simp only [Nat.add_zero, List.getElem?_cons_zero] at h0
        have ht : Memory.readFrom m (i + 1) k = some bs := by
          refine (ih (i + 1) bs).2 ⟨by simpa using hl, fun j hj => ?_⟩
          have := hr (j + 1) (by omega)
          rw [show i + (j + 1) = i + 1 + j by omega] at this
          simpa using this
        simp [h0, ht]

/-- A window is the sequence a space holds. -/
theorem window_eq_some_iff (m : Memory) (n : Nat) (bs : List Byte) :
    Memory.window m n = some bs ↔ n = bs.length ∧ ∀ i, i < bs.length → Memory.read m i = bs[i]? := by
  simp only [Memory.window, readFrom_eq_some_iff, Nat.zero_add]
  constructor
  · rintro ⟨rfl, h⟩; exact ⟨rfl, h⟩
  · rintro ⟨rfl, h⟩; exact ⟨rfl, h⟩

@[simp] theorem window_ofBytes (bs : List Byte) :
    Memory.window (Memory.ofBytes bs) bs.length = some bs :=
  (window_eq_some_iff _ _ _).2 ⟨rfl, fun i _ => read_ofBytes bs i⟩

/-- The snapshot of IN is the sequence IN holds (R51, R56). -/
theorem snapshotIn_eq_some_iff (q : Request) (bs : List Byte) :
    snapshotIn q = some bs ↔ q.holds bs :=
  window_eq_some_iff q.inp q.inLen bs

theorem readFrom_isSome_iff (m : Memory) (i k : Nat) :
    (Memory.readFrom m i k).isSome ↔ ∀ j, j < k → (Memory.read m (i + j)).isSome := by
  induction k generalizing i with
  | zero => simp [Memory.readFrom]
  | succ k ih =>
    have key : (∀ j, j < k + 1 → (Memory.read m (i + j)).isSome) ↔
        (Memory.read m i).isSome ∧ ∀ j, j < k → (Memory.read m (i + 1 + j)).isSome := by
      constructor
      · intro h
        exact ⟨h 0 (by omega), fun j hj => by
          have := h (j + 1) (by omega)
          rwa [show i + (j + 1) = i + 1 + j by omega] at this⟩
      · rintro ⟨h0, h⟩ j hj
        cases j with
        | zero => exact h0
        | succ j =>
          have := h j (by omega)
          rwa [show i + 1 + j = i + (j + 1) by omega] at this
    rw [key, ← ih (i + 1)]
    simp only [Memory.readFrom]
    cases Memory.read m i <;> cases Memory.readFrom m (i + 1) k <;> simp

/-- IN holds some sequence exactly when each of its IN_LEN bytes is there (R51). -/
theorem exists_holds_iff (q : Request) : (∃ bs, q.holds bs) ↔ q.inputPresent := by
  simp only [← snapshotIn_eq_some_iff, ← Option.isSome_iff_exists]
  simpa [snapshotIn, Memory.window, Request.inputPresent] using readFrom_isSome_iff q.inp 0 q.inLen

theorem snapshotIn_eq_none_iff (q : Request) : snapshotIn q = none ↔ ¬ q.inputPresent := by
  rw [← exists_holds_iff]
  simp only [← snapshotIn_eq_some_iff, ← Option.isSome_iff_exists]
  cases snapshotIn q <;> simp

/-- A request of the interface has every byte of IN (R51). -/
theorem Request.wf.inputPresent {q : Request} (h : q.wf) : q.inputPresent :=
  fun i hi => (h.2.1 i).2 hi

/-- Two sequences held by the same IN are equal. -/
theorem holds_unique {q : Request} {bs cs : List Byte} (h : q.holds bs) (h' : q.holds cs) : bs = cs :=
  Option.some.inj (((snapshotIn_eq_some_iff q bs).2 h).symm.trans ((snapshotIn_eq_some_iff q cs).2 h'))

/-- IN holds what the host drove it to (R74). -/
@[simp] theorem holds_withInput (q : Request) (bs : List Byte) : (q.withInput bs).holds bs :=
  ⟨rfl, fun i _ => read_ofBytes bs i⟩

/-! ## Emitted sequences -/

theorem foldl_emit (pre bs : List Byte) :
    bs.foldl emit { Results.empty with out := Memory.ofBytes pre, outLen := some pre.length } =
      Results.ofOut (pre ++ bs) := by
  induction bs generalizing pre with
  | nil => simp [Results.ofOut]
  | cons b bs ih =>
    have e : emit { Results.empty with out := Memory.ofBytes pre, outLen := some pre.length } b =
        { Results.empty with
          out := Memory.ofBytes (pre ++ [b])
          outLen := some (pre ++ [b]).length } := by
      have w := write_ofBytesFrom_end 0 pre b
      simp only [Nat.zero_add] at w
      simp [emit, Memory.ofBytes, w]
    rw [List.foldl_cons, e, ih]
    simp

/-- Emitting a sequence from an empty OUT leaves OUT holding it and OUT_LEN its length (R10, R52). -/
theorem emitAll_eq (bs : List Byte) : emitAll bs = Results.ofOut bs :=
  foldl_emit [] bs

end Sys2Proof.Machine
end

