-- ==== Sys2Proof/Laws/State.lean ====
section
/-! SUPPORT. The small lemmas of the state: one per field per update, all true by rfl. -/

namespace Sys2Proof.Machine

/-! ## `complete`, `raiseError`, `resetInstance` -/

@[simp] theorem complete_req (r : Results) (s : State) : (complete r s).req = s.req := rfl
@[simp] theorem complete_status (r : Results) (s : State) : (complete r s).status = statusOk := rfl
@[simp] theorem complete_res (r : Results) (s : State) : (complete r s).res = r := rfl

@[simp] theorem raiseError_req (e : Reason) (s : State) : (raiseError e s).req = s.req := rfl
@[simp] theorem raiseError_status (e : Reason) (s : State) : (raiseError e s).status = statusOf e := rfl
@[simp] theorem raiseError_res (e : Reason) (s : State) : (raiseError e s).res = Results.empty := rfl

@[simp] theorem resetInstance_req (s : State) : (resetInstance s).req = s.req := rfl
@[simp] theorem resetInstance_status (s : State) : (resetInstance s).status = statusIdle := rfl
@[simp] theorem resetInstance_res (s : State) : (resetInstance s).res = Results.empty := rfl

/-! ## `respond` -/

@[simp] theorem respond_ok (r : Results) (s : State) : respond (.ok r) s = complete r s := rfl
@[simp] theorem respond_error (e : Reason) (s : State) : respond (.error e) s = raiseError e s := rfl

@[simp] theorem respond_req (r : Except Reason Results) (s : State) : (respond r s).req = s.req := by
  cases r <;> rfl

/-- A response does not depend on the response before it (R29, R238). -/
theorem respond_congr (r : Except Reason Results) {s t : State} (h : s.req = t.req) :
    respond r s = respond r t := by
  cases r <;> simp [respond, complete, raiseError, h]

/-! ## The reset state -/

@[simp] theorem reset_status : State.reset.status = statusIdle := rfl
@[simp] theorem reset_res : State.reset.res = Results.empty := rfl
@[simp] theorem reset_req : State.reset.req = Request.initial := rfl

/-! ## Updates of the request -/

@[simp] theorem withCmd_cmd (q : Request) (c : Byte) : (q.withCmd c).cmd = c := rfl
@[simp] theorem withCmd_inp (q : Request) (c : Byte) : (q.withCmd c).inp = q.inp := rfl
@[simp] theorem withCmd_inLen (q : Request) (c : Byte) : (q.withCmd c).inLen = q.inLen := rfl

@[simp] theorem withInput_inp (q : Request) (bs : List Byte) :
    (q.withInput bs).inp = Memory.ofBytes bs := rfl
@[simp] theorem withInput_inLen (q : Request) (bs : List Byte) :
    (q.withInput bs).inLen = bs.length := rfl

@[simp] theorem set_inp (p : APort) (v : Nat) (q : Request) : (p.set v q).inp = q.inp := by
  cases p <;> rfl
@[simp] theorem set_inLen (p : APort) (v : Nat) (q : Request) : (p.set v q).inLen = q.inLen := by
  cases p <;> rfl
@[simp] theorem set_cmd (p : APort) (v : Nat) (q : Request) : (p.set v q).cmd = q.cmd := by
  cases p <;> rfl

/-- Driving a port to a value that fits it makes it hold that value (R23). -/
theorem get_set (p : APort) (v : Nat) (q : Request) (h : v < 2 ^ p.width) : p.get (p.set v q) = v := by
  have one : ∀ n : Nat, n < 2 → (n == 1).toNat = n := by decide
  cases p <;> simp only [APort.get, APort.set, BitVec.toNat_ofNat] <;>
    first | exact Nat.mod_eq_of_lt h | exact one v h

/-- Driving a port changes no other port (R74). -/
theorem get_set_other (p p' : APort) (v : Nat) (q : Request) (h : p' ≠ p) :
    p'.get (p.set v q) = p'.get q := by
  cases p <;> cases p' <;> first | rfl | exact absurd rfl h

@[simp] theorem withFetchWord_status (s : State) (nbits w : Nat) :
    (s.withFetchWord nbits w).status = s.status := rfl
@[simp] theorem withFetchWord_res (s : State) (nbits w : Nat) :
    (s.withFetchWord nbits w).res = s.res := rfl
@[simp] theorem withFetchWord_req (s : State) (nbits w : Nat) :
    (s.withFetchWord nbits w).req = s.req.withCmd (BitVec.ofNat 8 (w % 2 ^ nbits)) := rfl

/-! ## `emit` -/

@[simp] theorem emit_out (r : Results) (b : Byte) :
    (emit r b).out = Memory.write r.out (r.outLen.getD 0) b := rfl
@[simp] theorem emit_outLen (r : Results) (b : Byte) :
    (emit r b).outLen = some (r.outLen.getD 0 + 1) := rfl

end Sys2Proof.Machine
end

