-- ==== Sys2Proof/Laws/Exec.lean ====
section
/-! SUPPORT. What a command can do, said once: its response is one function of its request and the bytes of
IN (R20, R63), and nothing else of the instance changes. -/

namespace Sys2Proof.Machine

/-- What each command computes from its request and the bytes of IN, at a given CF_DECODE_RESTRICTED
(R63). A command that does not read IN ignores `bs`. -/
def responseOf (restricted : Bool) (i : Instr) (q : Request) (bs : List Byte) : Except Reason Results :=
  match i with
  | .bitGet => .ok { Results.empty with rBit := some (bitGet q.aByte q.aBitIdx) }
  | .bitSet => .ok { Results.empty with rByte := some (bitSet q.aByte q.aBitIdx q.aBitVal) }
  | .rlDec => rlDecResults bs
  | .rlEnc => rlEncResults q
  | .fhDec => fhDecResults bs
  | .fhEnc => fhEncResults q
  | .cfDec => cfDecResults restricted q
  | .cfEnc => cfEncResults q
  | .cvhDec => cvhDecResults restricted q bs
  | .cvhEnc => cvhEncResults q
  | .cavhEnc => .ok (emitAll (cavhBytes q.aSp q.aRc))
  | .frameDec => frameDecResults restricted bs
  | .frameEnc => frameEncResults q bs
  | .reservedCavhDec => .error .undefinedOpcode

/-! ## `withInput` -/

theorem withInput_of_holds {s : State} {bs : List Byte} (h : s.req.holds bs)
    (f : List Byte → Except Reason Results) : withInput f s = .next (respond (f bs) s) := by
  rw [withInput, (snapshotIn_eq_some_iff s.req bs).2 h]

theorem withInput_of_absent {s : State} (h : ¬ s.req.inputPresent)
    (f : List Byte → Except Reason Results) : withInput f s = .fault .inputByteAbsent := by
  rw [withInput, (snapshotIn_eq_none_iff s.req).2 h]

/-- Everything `withInput` can answer. -/
theorem withInput_cases (f : List Byte → Except Reason Results) (s : State) :
    (∃ bs, s.req.holds bs ∧ withInput f s = .next (respond (f bs) s)) ∨
      (¬ s.req.inputPresent ∧ withInput f s = .fault .inputByteAbsent) := by
  by_cases h : s.req.inputPresent
  · obtain ⟨bs, hb⟩ := (exists_holds_iff s.req).2 h
    exact .inl ⟨bs, hb, withInput_of_holds hb f⟩
  · exact .inr ⟨h, withInput_of_absent h f⟩

/-! ## `execAt` -/

theorem execAt_of_readsIn {i : Instr} (h : readsIn i = true) (restricted : Bool) (s : State) :
    execAt restricted i s = withInput (responseOf restricted i s.req) s := by
  cases i <;> first | rfl | exact absurd h (by decide)

theorem execAt_of_not_readsIn {i : Instr} (h : readsIn i = false) (restricted : Bool) (s : State)
    (bs : List Byte) : execAt restricted i s = .next (respond (responseOf restricted i s.req bs) s) := by
  cases i <;> first | rfl | exact absurd h (by decide)

/-- A command whose IN is present responds, and the response is that of the bytes IN holds. -/
theorem execAt_of_holds {s : State} {bs : List Byte} (h : s.req.holds bs) (restricted : Bool) (i : Instr) :
    execAt restricted i s = .next (respond (responseOf restricted i s.req bs) s) := by
  cases hi : readsIn i with
  | true => rw [execAt_of_readsIn hi, withInput_of_holds h]
  | false => exact execAt_of_not_readsIn hi restricted s bs

/-- If a command answers a next state, that state is its response over the bytes IN holds. -/
theorem execAt_next {restricted : Bool} {i : Instr} {s t : State} (h : execAt restricted i s = .next t) :
    ∃ bs, (readsIn i = true → s.req.holds bs) ∧ t = respond (responseOf restricted i s.req bs) s := by
  cases hi : readsIn i with
  | true =>
    rw [execAt_of_readsIn hi] at h
    rcases withInput_cases (responseOf restricted i s.req) s with ⟨bs, hb, e⟩ | ⟨-, e⟩
    · rw [e] at h
      exact ⟨bs, fun _ => hb, (Host.Outcome.next.inj h).symm⟩
    · rw [e] at h; exact absurd h (by simp)
  | false =>
    rw [execAt_of_not_readsIn hi restricted s []] at h
    exact ⟨[], fun h => absurd h (by simp), (Host.Outcome.next.inj h).symm⟩

/-! ## The same facts of `exec`, which runs at CF_DECODE_RESTRICTED = true -/

theorem exec_of_holds {s : State} {bs : List Byte} (h : s.req.holds bs) (i : Instr) :
    exec i s = .next (respond (responseOf true i s.req bs) s) := by
  rw [show exec i s = execAt true i s by cases i <;> rfl]
  exact execAt_of_holds h true i

theorem exec_of_not_readsIn {i : Instr} (h : readsIn i = false) (s : State) (bs : List Byte) :
    exec i s = .next (respond (responseOf true i s.req bs) s) := by
  rw [show exec i s = execAt true i s by cases i <;> rfl]
  exact execAt_of_not_readsIn h true s bs

theorem exec_next {i : Instr} {s t : State} (h : exec i s = .next t) :
    ∃ bs, (readsIn i = true → s.req.holds bs) ∧ t = respond (responseOf true i s.req bs) s := by
  rw [show exec i s = execAt true i s by cases i <;> rfl] at h
  exact execAt_next h

/-- A command leaves the request as it is (R231). -/
theorem exec_req {i : Instr} {s t : State} (h : exec i s = .next t) : t.req = s.req := by
  obtain ⟨bs, -, rfl⟩ := exec_next h
  exact respond_req _ _

/-! ## `step` -/

/-- A step is the response of one command, or of an illegal one (R21, R76). -/
theorem step_next {s t : State} (h : step s = .next t) :
    (∃ i, decodeCmd s.req.cmd = .ok i ∧ exec i s = .next t) ∨ t = raiseError .undefinedOpcode s := by
  unfold step fetchCmd at h
  split at h
  · rename_i i hi
    exact .inl ⟨i, hi, h⟩
  · exact .inr (Host.Outcome.next.inj h).symm

theorem step_req {s t : State} (h : step s = .next t) : t.req = s.req := by
  rcases step_next h with ⟨i, -, h⟩ | rfl
  · exact exec_req h
  · rfl

end Sys2Proof.Machine
end

