-- ==== Sys2Proof/Laws/PerInstr.lean ====
section
/-! SUPPORT. The per-instruction family: the encoding of every row of the opcode table (R70, R71). -/

namespace Sys2Proof.Laws.CmdRoundTrip

/-- The CMD byte of a row has SUB = 000 (R70), and decodes to that row and no other (R71). -/
def Statement (i : Instr) : Prop :=
  cmdSub (encode i) = 0 ∧ decodeCmd (encode i) = .ok i ∧
    decodeTableWord 8 (encode i).toNat = some i

theorem bitGet : Statement .bitGet := ⟨rfl, rfl, rfl⟩
theorem bitSet : Statement .bitSet := ⟨rfl, rfl, rfl⟩
theorem rlDec : Statement .rlDec := ⟨rfl, rfl, rfl⟩
theorem rlEnc : Statement .rlEnc := ⟨rfl, rfl, rfl⟩
theorem fhDec : Statement .fhDec := ⟨rfl, rfl, rfl⟩
theorem fhEnc : Statement .fhEnc := ⟨rfl, rfl, rfl⟩
theorem cfDec : Statement .cfDec := ⟨rfl, rfl, rfl⟩
theorem cfEnc : Statement .cfEnc := ⟨rfl, rfl, rfl⟩
theorem cvhDec : Statement .cvhDec := ⟨rfl, rfl, rfl⟩
theorem cvhEnc : Statement .cvhEnc := ⟨rfl, rfl, rfl⟩
theorem cavhEnc : Statement .cavhEnc := ⟨rfl, rfl, rfl⟩
theorem frameDec : Statement .frameDec := ⟨rfl, rfl, rfl⟩
theorem frameEnc : Statement .frameEnc := ⟨rfl, rfl, rfl⟩
theorem reservedCavhDec : Statement .reservedCavhDec := ⟨rfl, rfl, rfl⟩

end Sys2Proof.Laws.CmdRoundTrip
end

