-- ==== Sys2Proof/Tests/Slice0.lean ====
section
/-! SUPPORT. Tests of the model on the spec's own vectors (spec/95_test_vectors.md), the WellFormed smoke,
the decoding of words written out from the opcode map (R71), and a witness for the hypotheses of every
statement that has any. -/

namespace Sys2Proof.Tests

open Sys2Proof.Machine

/-! ## Helpers -/

/-- The instance right after reset, with the host driving the named ports and IN = `bs`. -/
def driven (ports : List (APort × Nat)) (bs : List Byte) : State :=
  { State.reset with req := (ports.foldl (fun q p => p.1.set p.2 q) Request.initial).withInput bs }

theorem driven_holds (ports : List (APort × Nat)) (bs : List Byte) : (driven ports bs).req.holds bs :=
  holds_withInput _ bs

theorem driven_present (ports : List (APort × Nat)) (bs : List Byte) :
    (driven ports bs).req.inputPresent :=
  (exists_holds_iff _).1 ⟨bs, driven_holds ports bs⟩

/-- The response of a transaction: STATUS and the result ports. -/
def response (o : Host.Outcome State Fault Refusal) : Option (BitVec 16 × Results) :=
  match o with
  | .next t => some (t.status, t.res)
  | .fault _ => none
  | .refused _ => none

/-- The response of an error: the STATUS word and no port (R27). -/
def failed (w : BitVec 16) : Option (BitVec 16 × Results) := some (w, Results.empty)

/-- A command drives one step after reset with only CMD presented. -/
def issued (cmd : Byte) : Option (BitVec 16 × Results) :=
  response (step { State.reset with req := Request.initial.withCmd cmd })

/-- What the host finds after a statement: its position, IN, STATUS, or nothing. -/
def hostSees (o : Host.Outcome HostState Fault Refusal) : Option (Nat × Memory × BitVec 16) :=
  match o with
  | .next h => some (h.pos, h.inst.req.inp, h.inst.status)
  | .fault _ => none
  | .refused _ => none

/-- Why a host statement faults, if it does. -/
def hostFault (o : Host.Outcome HostState Fault Refusal) : Option Fault :=
  match o with
  | .next _ => none
  | .fault f => some f
  | .refused _ => none

/-- Why a host statement is refused, if it is. -/
def hostRefusal (o : Host.Outcome HostState Fault Refusal) : Option Refusal :=
  match o with
  | .next _ => none
  | .fault _ => none
  | .refused r => some r

/-- The ten bytes of the spec's CONNECT Variable Header with flags `f` (keepAlive 0x003C). -/
def connectBytes (f : Byte) : List Byte := [0x00, 0x04, 0x4D, 0x51, 0x54, 0x54, 0x04, f, 0x00, 0x3C]

/-! ## WellFormed -/

/-- The reserved row is the one ill-formed term (R78). -/
theorem test_wellFormed_refuses_reserved : Instr.wellFormed .reservedCavhDec = false := by decide

theorem test_wellFormed_accepts_thirteen :
    (Instr.all.filter Instr.wellFormed).length = 13 := by decide

/-! ## Decoding: every row of the opcode map, FAMILY SUB DIR written out in bits (R70, R71) -/

theorem test_decode_bitGet : decodeCmd 0b0001_000_0 = .ok .bitGet := by rfl
theorem test_decode_bitSet : decodeCmd 0b0001_000_1 = .ok .bitSet := by rfl
theorem test_decode_rlDec : decodeCmd 0b0010_000_0 = .ok .rlDec := by rfl
theorem test_decode_rlEnc : decodeCmd 0b0010_000_1 = .ok .rlEnc := by rfl
theorem test_decode_fhDec : decodeCmd 0b0011_000_0 = .ok .fhDec := by rfl
theorem test_decode_fhEnc : decodeCmd 0b0011_000_1 = .ok .fhEnc := by rfl
theorem test_decode_cfDec : decodeCmd 0b0100_000_0 = .ok .cfDec := by rfl
theorem test_decode_cfEnc : decodeCmd 0b0100_000_1 = .ok .cfEnc := by rfl
theorem test_decode_cvhDec : decodeCmd 0b0101_000_0 = .ok .cvhDec := by rfl
theorem test_decode_cvhEnc : decodeCmd 0b0101_000_1 = .ok .cvhEnc := by rfl
theorem test_decode_cavhEnc : decodeCmd 0b0110_000_1 = .ok .cavhEnc := by rfl
theorem test_decode_frameDec : decodeCmd 0b0111_000_0 = .ok .frameDec := by rfl
theorem test_decode_frameEnc : decodeCmd 0b0111_000_1 = .ok .frameEnc := by rfl
theorem test_decode_reservedCavhDec : decodeCmd 0b0110_000_0 = .ok .reservedCavhDec := by rfl

theorem test_decode_sub_not_zero : decodeCmd 0x12 = .error .subNotZero ∧ decodeCmd 0x23 = .error .subNotZero := by
  constructor <;> rfl

theorem test_decode_no_family :
    decodeCmd 0x00 = .error .noSuchFamily ∧ decodeCmd 0x80 = .error .noSuchFamily ∧
      decodeCmd 0xF1 = .error .noSuchFamily := ⟨rfl, rfl, rfl⟩

/-- A table word longer than the CMD byte is no command (R73). -/
theorem test_decodeTableWord_one_byte :
    decodeTableWord 8 0x70 = some .frameDec ∧ decodeTableWord 16 0x170 = none := by decide

/-! ## One step per vector of spec/95_test_vectors.md, part 2 -/

/-- Vector BIT.GET A_BYTE=0xCE, A_BITIDX=2. -/
theorem test_bitGet_0xCE_2 :
    response (exec .bitGet (driven [(.byte, 0xCE), (.bitIdx, 2)] [])) =
      some (0x0000, { Results.empty with rBit := some true }) := by decide

/-- Vector BIT.GET A_BYTE=0xCE, A_BITIDX=0. -/
theorem test_bitGet_0xCE_0 :
    response (exec .bitGet (driven [(.byte, 0xCE), (.bitIdx, 0)] [])) =
      some (0x0000, { Results.empty with rBit := some false }) := by decide

/-- Vector BIT.SET A_BYTE=0xCE, A_BITIDX=2, A_BITVAL=0. -/
theorem test_bitSet_clears :
    response (exec .bitSet (driven [(.byte, 0xCE), (.bitIdx, 2), (.bitVal, 0)] [])) =
      some (0x0000, { Results.empty with rByte := some 0xCA }) := by decide

/-- Vector BIT.SET A_BYTE=0x55, A_BITIDX=3, A_BITVAL=1. -/
theorem test_bitSet_sets :
    response (exec .bitSet (driven [(.byte, 0x55), (.bitIdx, 3), (.bitVal, 1)] [])) =
      some (0x0000, { Results.empty with rByte := some 0x5D }) := by decide

/-- Vector RL.DEC IN=[0xC1, 0x02, 0x33]. -/
theorem test_rlDec_321 :
    response (exec .rlDec (driven [] [0xC1, 0x02, 0x33])) =
      some (0x0000, { Results.empty with rValue := some 321, rConsumed := some 2, rRemOff := some 2 }) := by decide

/-- Vector RL.DEC IN=[0xFF, 0xFF, 0xFF, 0xFF]: RL_TOO_LONG precedes SHORT_BUFFER. -/
theorem test_rlDec_too_long :
    response (exec .rlDec (driven [] [0xFF, 0xFF, 0xFF, 0xFF])) =
      failed 0x0201 := by decide

/-- Vector RL.ENC A_VALUE=268435455. -/
theorem test_rlEnc_max :
    response (exec .rlEnc (driven [(.value, 268435455)] [])) =
      some (0x0000, Results.ofOut [0xFF, 0xFF, 0xFF, 0x7F]) := by decide

/-- Vector RL.ENC A_VALUE=321. -/
theorem test_rlEnc_321 :
    response (exec .rlEnc (driven [(.value, 321)] [])) =
      some (0x0000, Results.ofOut [0xC1, 0x02]) := by decide

/-- Vector FH.DEC IN=[0x3D, 0x00]. -/
theorem test_fhDec_all_fields :
    response (exec .fhDec (driven [] [0x3D, 0x00])) =
      some (0x0000, { Results.empty with rPtype := some 3, rDup := some true, rQos := some 2, rRetain := some true, rRlen := some 0, rRemOff := some 2 }) := by decide

/-- Vector FH.DEC IN=[0x07, 0xFF, 0xFF, 0xFF, 0xFF]: the QoS code is checked before the field. -/
theorem test_fhDec_qos_first :
    response (exec .fhDec (driven [] [0x07, 0xFF, 0xFF, 0xFF, 0xFF])) =
      failed 0x1402 := by decide

/-- Vector FH.ENC A_PTYPE=3, A_QOS=1, A_VALUE=321. -/
theorem test_fhEnc_321 :
    response (exec .fhEnc (driven [(.ptype, 3), (.qos, 1), (.value, 321)] [])) =
      some (0x0000, Results.ofOut [0x32, 0xC1, 0x02]) := by decide

/-- Vector FH.ENC A_QOS=3, A_VALUE=268435456: both wrong, and the qos check is first. -/
theorem test_fhEnc_qos_first :
    response (exec .fhEnc (driven [(.ptype, 1), (.qos, 3), (.value, 268435456)] [])) =
      failed 0x3104 := by decide

/-- Vector CF.DEC A_BYTE=0x2A: willQoS before willRetain (C4). -/
theorem test_cfDec_will_qos_before_retain :
    response (exec .cfDec (driven [(.byte, 0x2A)] [])) =
      failed 0x2203 := by decide

/-- Vector CF.DEC A_BYTE=0xCE with CF_DECODE_RESTRICTED = false. -/
theorem test_cfDec_unrestricted_0xCE :
    response (execAt false .cfDec (driven [(.byte, 0xCE)] [])) =
      some (0x0000, { Results.empty with rClean := some true, rWill := some true, rWqos := some 1, rWretain := some false, rPassword := some true, rUsername := some true }) := by decide

/-- Vector CF.ENC of the §8 flags. -/
theorem test_cfEnc_0xCE :
    response (exec .cfEnc (driven [(.clean, 1), (.will, 1), (.wqos, 1), (.wretain, 0), (.password, 1), (.username, 1)] [])) =
      some (0x0000, { Results.empty with rByte := some 0xCE }) := by decide

/-- Vector CF.ENC A_WQOS=3. -/
theorem test_cfEnc_qos3 :
    response (exec .cfEnc (driven [(.wqos, 3)] [])) =
      failed 0x3104 := by decide

/-- Example W14: keepAlive is big-endian, 0x0102 = 258. -/
theorem test_cvhDec_keepAlive :
    response (exec .cvhDec (driven [(.ptype, 1)] [0x00, 0x04, 0x4D, 0x51, 0x54, 0x54, 0x04, 0x02, 0x01, 0x02])) =
      some (0x0000, { Results.empty with rPname := some ⟨0x4D, 0x51, 0x54, 0x54⟩, rPlevel := some 4, rClean := some true, rWill := some false, rWqos := some 0, rWretain := some false, rPassword := some false, rUsername := some false, rKeepalive := some 258, rRemOff := some 10 }) := by decide

/-- Vector CVH.DEC with name, level and flags all wrong: the name is first. -/
theorem test_cvhDec_name_first :
    response (exec .cvhDec (driven [(.ptype, 1)] [0x00, 0x04, 0x4D, 0x51, 0x54, 0x74, 0x03, 0x01, 0x00, 0x00])) =
      failed 0x1102 := by decide

/-- Vector CVH.ENC of the §8 header. -/
theorem test_cvhEnc_0xCE :
    response (exec .cvhEnc (driven [(.clean, 1), (.will, 1), (.wqos, 1), (.wretain, 0), (.password, 1), (.username, 1), (.keepalive, 10)] [])) =
      some (0x0000, Results.ofOut [0x00, 0x04, 0x4D, 0x51, 0x54, 0x54, 0x04, 0xCE, 0x00, 0x0A]) := by decide

/-- Vector CVH.ENC A_WQOS=3: no OUT. -/
theorem test_cvhEnc_qos3 :
    response (exec .cvhEnc (driven [(.clean, 1), (.wqos, 3), (.keepalive, 60)] [])) =
      failed 0x3104 := by decide

/-- Example W10. -/
theorem test_cavhEnc_w10 :
    response (exec .cavhEnc (driven [(.sp, 1), (.rc, 0)] [])) =
      some (0x0000, Results.ofOut [0x01, 0x00]) := by decide

/-- Vector CAVH.ENC A_SP=0, A_RC=128. -/
theorem test_cavhEnc_rc_128 :
    response (exec .cavhEnc (driven [(.sp, 0), (.rc, 128)] [])) =
      some (0x0000, Results.ofOut [0x00, 0x80]) := by decide

/-- Vector FRAME.DEC of a CONNECT frame whose Remaining Length is 0: not compared. -/
theorem test_frameDec_connect :
    response (exec .frameDec (driven [] ([0x10, 0x00] ++ connectBytes 0x02))) =
      some (0x0000, { Results.empty with rPtype := some 1, rDup := some false, rQos := some 0, rRetain := some false, rRlen := some 0, rVh := some true, rPname := some ⟨0x4D, 0x51, 0x54, 0x54⟩, rPlevel := some 4, rClean := some true, rWill := some false, rWqos := some 0, rWretain := some false, rPassword := some false, rUsername := some false, rKeepalive := some 60, rRemOff := some 12 }) := by decide

/-- Vector FRAME.DEC IN=[0x20, 0x02, 0x01, 0x00]: no Stage 2. -/
theorem test_frameDec_connack :
    response (exec .frameDec (driven [] [0x20, 0x02, 0x01, 0x00])) =
      some (0x0000, { Results.empty with rPtype := some 2, rDup := some false, rQos := some 0, rRetain := some false, rRlen := some 2, rVh := some false, rRemOff := some 2 }) := by decide

/-- Vector FRAME.ENC A_PTYPE=2, IN=[0x01, 0x00]. -/
theorem test_frameEnc_connack :
    response (exec .frameEnc (driven [(.ptype, 2)] [0x01, 0x00])) =
      some (0x0000, Results.ofOut [0x20, 0x02, 0x01, 0x00]) := by decide

/-- Vector FRAME.ENC A_PTYPE=14, IN=[]. -/
theorem test_frameEnc_empty :
    response (exec .frameEnc (driven [(.ptype, 14)] [])) =
      some (0x0000, Results.ofOut [0xE0, 0x00]) := by decide

/-- The illegal commands of part 2, 0x60 among them. -/
theorem test_illegal_commands :
    issued 0x00 = failed 0x4005 ∧ issued 0x12 = failed 0x4005 ∧ issued 0x60 = failed 0x4005 ∧
      issued 0x80 = failed 0x4005 ∧ issued 0xFF = failed 0x4005 := by decide

/-- Codes 0 and 15 are reserved packet types; 1 and 14 are defined (R81). -/
theorem test_packetName_bounds :
    packetName 0 = none ∧ packetName 15 = none ∧ packetName 1 = some .connect ∧
      packetName 14 = some .disconnect := by decide

/-! ## One host statement each (R74), from the programs of part 3 -/

/-- P1 step 3: `IN <- OUT` after CAVH.ENC. -/
theorem test_host_inFromOut :
    hostSees (runStmt none [] .inFromOut ⟨4, State.okWith (driven [] []) (Results.ofOut [0x01, 0x00])⟩) =
      some (5, [(0, 0x01), (1, 0x00)], 0x0000) := by decide

/-- P4 step 10: `IN <- IN[R_REM_OFF:]`. -/
theorem test_host_inFromRemainder :
    hostSees (runStmt none [] .inFromRemainder
        ⟨0, State.okWith (driven [] [0x10, 0x0A, 0xE0, 0x00]) { Results.empty with rRemOff := some 2 }⟩) =
      some (1, [(0, 0xE0), (1, 0x00)], 0x0000) := by decide

/-- P5 step 3: a taken branch on STATUS.CLASS. -/
theorem test_host_branch_taken :
    hostSees (runStmt none [.jump 7, .label 7] (.branch ⟨.statusClass, true, .num 3⟩ 7)
        ⟨0, State.failedWith (driven [] []) 0x2103⟩) = some (1, [], 0x2103) := by decide

/-- A branch on a port that holds no value is a fault of the program (R27, R74). -/
theorem test_host_branch_invalid_port :
    hostFault (runStmt none [.label 0] (.branch ⟨.port .vh, true, .num 0⟩ 0) ⟨0, State.reset⟩) =
      some (.portHoldsNoValue .vh) := by decide

/-- P6: BIT.SET keeps the ports its statement does not name (A_BYTE = 0x02). -/
theorem test_host_command_keeps_ports :
    (match runStmt none [] (.command 0x11 [(.bitIdx, 2), (.bitVal, 1)]) ⟨0, driven [(.byte, 0x02)] []⟩ with
      | .next h => h.inst.res.rByte
      | .fault _ => none
      | .refused _ => none) = some 0x06 := by decide

/-- A value wider than its port is no value of it (R23). -/
theorem test_host_value_too_wide :
    hostRefusal (runStmt none [] (.command 0x10 [(.bitIdx, 8)]) ⟨0, State.reset⟩) =
      some (.valueTooWide .bitIdx) := by decide

/-- More than MAX_BUF_LEN bytes are never presented (R53). -/
theorem test_host_buffer_too_long :
    hostRefusal (runStmt (some 1) [] (.setIn [0x00, 0x01]) ⟨0, State.reset⟩) = some .bufferTooLong := by
  decide

/-- A command that reads IN stops when IN lacks one of its IN_LEN bytes (log entry 4). -/
theorem test_absent_input_byte_faults :
    (match exec .rlDec { State.reset with req := { Request.initial with inLen := 1 } } with
      | .next _ => none
      | .fault f => some f
      | .refused _ => none) = some .inputByteAbsent := by decide

/-! ## Witnesses: the hypotheses of the statements, met together -/

theorem witness_DecodeAndEncodeAgree : decodeCmd 0x71 = .ok .frameEnc := rfl

theorem witness_StepRunsTheDecodedCommand :
    decodeCmd (State.reset.withFetchWord 8 0x21).req.cmd = .ok .rlEnc ∧
      decodeTableWord 8 0x21 = some .rlEnc := ⟨rfl, rfl⟩

theorem witness_IllegalCmdRaisesUndefinedOpcode :
    (State.reset.withFetchWord 8 0x60).req.cmd.toNat ∉
      [0x10, 0x11, 0x20, 0x21, 0x30, 0x31, 0x40, 0x41, 0x50, 0x51, 0x61, 0x70, 0x71] := by decide

theorem witness_ResetLeavesIdleAndNoResult : (driven [] [0x10, 0x0A]).req.inputPresent :=
  driven_present _ _

/-- Reset satisfies the invariant at any MAX_BUF_LEN. -/
theorem reset_inv : State.reset.Inv := by
  refine ⟨⟨List.Pairwise.nil, fun i => by simp [State.reset, Request.initial, Memory.read], ?_⟩,
    .inl (by decide), fun _ => rfl, ⟨List.Pairwise.nil, fun i => by
      simp [State.reset, Results.empty, Memory.read]⟩, ?_⟩
  · simp only [State.reset, Request.initial, Config.fits]
    split <;> simp
  · simp [State.reset, Results.empty, Results.inRange, whenValid]

/-- An instance whose IN holds `bs` satisfies the invariant wherever MAX_BUF_LEN admits `bs`. -/
theorem driven_inv (bs : List Byte) (h : Config.fits Config.maxBufLen bs.length = true) :
    (driven [] bs).Inv := by
  refine ⟨⟨ofBytes_wf bs, fun i => ?_, h⟩, reset_inv.2⟩
  simp [driven, Request.withInput]

theorem witness_EveryStepKeepsTheInvariant :
    State.reset.Inv ∧ ∃ t, step State.reset = .next t := ⟨reset_inv, _, rfl⟩

theorem witness_EveryStepKeepsTheInvariant_with_input
    (h : Config.fits Config.maxBufLen 2 = true) :
    (driven [] [0x80, 0x01]).Inv ∧ exec .rlDec (driven [] [0x80, 0x01]) = .next
      ((driven [] [0x80, 0x01]).okWith
        { Results.empty with rValue := some 128, rConsumed := some 2, rRemOff := some 2 }) :=
  ⟨driven_inv _ h, rfl⟩

theorem witness_EveryHostStatementKeepsTheInvariant :
    ∃ h', State.reset.Inv ∧
      hostStep Config.maxBufLen [.command 0x21 [(.value, 128)]] ⟨0, State.reset⟩ = .next h' :=
  ⟨_, reset_inv, rfl⟩

theorem witness_StatusFieldsAfterEveryStep :
    ∃ t u, step ((driven [] []).withFetchWord 8 0x21) = .next t ∧
      step ((driven [] []).withFetchWord 8 0x20) = .next u ∧ t.status = 0x0000 ∧ u.status = 0x0101 :=
  ⟨_, _, rfl, rfl, rfl, rfl⟩

theorem witness_NoCommandWritesTheRequest :
    ∃ t, exec .frameEnc (driven [(.ptype, 2)] [0x01, 0x00]) = .next t := ⟨_, rfl⟩

/-- Both clauses: OK with Stage 2 having run, and an error. -/
theorem witness_ExactlyTheWrittenPortsAreValid :
    ∃ t u, exec .frameDec (driven [] ([0x10, 0x0A] ++ connectBytes 0x02)) = .next t ∧
      statusClass t.status = 0 ∧ t.res.rVh = some true ∧
      exec .frameDec (driven [] [0x16, 0x00]) = .next u ∧ statusClass u.status ≠ 0 ∧
      ¬ ∃ v, readResult .ptype u = .ok v :=
  ⟨_, _, rfl, rfl, rfl, rfl, by decide, by rintro ⟨v, h⟩; cases h⟩

theorem witness_ReasonCodesAreTheTable : statusOf .rlTooLong = statusOf .rlTooLong := rfl

/-- A command that raises when restricted and returns when not; a reason the parameter adds; and both
kinds of illegal CMD. -/
theorem witness_ExactlyTheListedReasonsAreRaised :
    (∃ t u, execAt true .cfDec (driven [(.byte, 0xCE)] []) = .next t ∧ t.status = 0x2103 ∧
        execAt false .cfDec (driven [(.byte, 0xCE)] []) = .next u ∧ u.status = 0x0000) ∧
      .usernameFlagSet ∈ reasonsOf true .frameDec ∧ .reservedFlagBit ∈ reasonsOf false .frameDec ∧
      (∀ i, decodeCmd (State.reset.withFetchWord 8 0x60).req.cmd = .ok i → i.wellFormed = false) ∧
      ∀ i, decodeCmd (State.reset.withFetchWord 8 0x12).req.cmd = .ok i → i.wellFormed = false := by
  refine ⟨⟨_, _, rfl, rfl, rfl, rfl⟩, by decide, by decide, fun i h => ?_, fun i h => ?_⟩
  · cases h; rfl
  · cases h

/-- RL.DEC reads no scalar port: A_VALUE and STATUS differ, IN agrees. -/
theorem witness_UnreadPortsHaveNoEffect :
    (driven [] [0x05]).req.inputPresent ∧
      agreeOnRead .rlDec (driven [] [0x05]).req
        (State.failedWith (driven [(.value, 9)] [0x05]) 0x0101).req :=
  ⟨driven_present _ _, by simp [portsRead], fun _ => ⟨rfl, fun _ _ => rfl⟩⟩

theorem witness_EarlierOutcomesHaveNoEffect :
    ∃ t, exec .cfDec (driven [(.byte, 0x02)] []) = .next t := ⟨_, rfl⟩

theorem witness_IssuingTwiceGivesTheSameResponse :
    ∃ t, step ((driven [(.ptype, 2)] [0x01, 0x00]).withFetchWord 8 0x71) = .next t := ⟨_, rfl⟩

/-- RL.DEC: two INs that agree on the 4 bytes of the read bound and differ after them. -/
theorem witness_EveryCommandTerminatesWithinItsBounds_reads :
    readLimit .rlDec = some 4 ∧
      (∀ p ∈ portsRead .rlDec, p.get (driven [] [0x80, 0x80, 0x80, 0x01, 0xAA]).req =
        p.get (driven [] [0x80, 0x80, 0x80, 0x01]).req) ∧
      (driven [] [0x80, 0x80, 0x80, 0x01, 0xAA]).req.holds [0x80, 0x80, 0x80, 0x01, 0xAA] ∧
      (driven [] [0x80, 0x80, 0x80, 0x01]).req.holds [0x80, 0x80, 0x80, 0x01] ∧
      [0x80, 0x80, 0x80, 0x01, 0xAA].take 4 = ([0x80, 0x80, 0x80, 0x01] : List Byte).take 4 :=
  ⟨rfl, by simp [portsRead], driven_holds _ _, driven_holds _ _, rfl⟩

/-- CVH.DEC with a packet type other than 1 over two different INs. -/
theorem witness_EveryCommandTerminatesWithinItsBounds_type :
    (driven [(.ptype, 0)] []).req.aPtype = (driven [(.ptype, 0)] [0x01]).req.aPtype ∧
      (driven [(.ptype, 0)] []).req.aPtype ≠ 1 ∧ (driven [(.ptype, 0)] []).req.inputPresent ∧
      (driven [(.ptype, 0)] [0x01]).req.inputPresent :=
  ⟨rfl, by decide, driven_present _ _, driven_present _ _⟩

/-- The emission bounds: 10 bytes of CVH.ENC, and FRAME.ENC. -/
theorem witness_EveryCommandTerminatesWithinItsBounds_emits :
    ∃ t u, exec .cvhEnc (driven [] []) = .next t ∧ t.res.outLen = some 10 ∧
      exec .frameEnc (driven [] [0x01, 0x00]) = .next u ∧ u.res.outLen = some 4 :=
  ⟨_, _, rfl, rfl, rfl, rfl⟩

/-- Each decoder at both ends of its range: 1 and 4, 2 and 5, 10, 2 and 15. -/
theorem witness_RemainderOffsetLiesWithinIn :
    (response (exec .rlDec (driven [] [0x00]))).bind (fun r => r.2.rRemOff) = some 1 ∧
      (response (exec .rlDec (driven [] [0xFF, 0xFF, 0xFF, 0x7F]))).bind (fun r => r.2.rRemOff) = some 4 ∧
      (response (exec .fhDec (driven [] [0xE0, 0x00]))).bind (fun r => r.2.rRemOff) = some 2 ∧
      (response (exec .fhDec (driven [] [0xF9, 0xFF, 0xFF, 0xFF, 0x7F]))).bind (fun r => r.2.rRemOff) =
        some 5 ∧
      (response (exec .cvhDec (driven [(.ptype, 1)] (connectBytes 0x02)))).bind (fun r => r.2.rRemOff) =
        some 10 ∧
      (response (exec .frameDec (driven [] [0xF0, 0x00]))).bind (fun r => r.2.rRemOff) = some 2 ∧
      (response (exec .frameDec (driven [] ([0x10, 0x8A, 0x80, 0x80, 0x00] ++ connectBytes 0x02)))).bind
        (fun r => r.2.rRemOff) = some 15 := by decide

/-- The seven calls, each with an error of the called function. -/
theorem witness_ErrorsPropagateUnchanged :
    ((driven [] [0x10]).req.holds [0x10] ∧ fhDecode [0x10] = .error .shortBuffer) ∧
      ((driven [] [0x10, 0x80]).req.holds (0x10 :: 0x80 :: []) ∧ (0x10 : Byte).toNat / 2 % 4 ≠ 3 ∧
        rlDecode (0x80 :: []) = .error .shortBuffer) ∧
      ((driven [(.ptype, 1)] (connectBytes 0xCE)).req.holds (connectBytes 0xCE ++ []) ∧
        (driven [(.ptype, 1)] (connectBytes 0xCE)).req.aPtype = 1 ∧
        cfDecode true 0xCE = .error .willFlagSet) ∧
      ((driven [] [0x10, 0x05, 0x00]).req.holds [0x10, 0x05, 0x00] ∧
        fhDecode [0x10, 0x05, 0x00] = .ok (⟨1, false, 0, false, 5⟩, 2) ∧
        cvhDecode false 1 [0x00] = .error .shortBuffer) ∧
      ((driven [(.value, 268435456)] []).req.aQos ≠ 3 ∧
        rlEncode (driven [(.value, 268435456)] []).req.aValue.toNat = .error .valueOutOfRange) ∧
      cfEncode (flagsOperand (driven [(.wqos, 3)] []).req) = .error .invalidQosOperand ∧
      ((driven [(.qos, 3)] [0x01]).req.holds [0x01] ∧
        fhEncode 0 false (driven [(.qos, 3)] [0x01]).req.aQos false 1 = .error .invalidQosOperand) :=
  ⟨⟨driven_holds _ _, rfl⟩, ⟨driven_holds _ _, by decide, rfl⟩, ⟨driven_holds _ _, rfl, rfl⟩,
    ⟨driven_holds _ _, rfl, rfl⟩, ⟨by decide, rfl⟩, rfl, driven_holds _ _, rfl⟩

/-- Two instances: one issues a command, the other is reset. -/
theorem witness_InstancesAreIndependent :
    ∃ y1 y2, (0 : Nat) ≠ 1 ∧
      System.act none 0 .issue ⟨[State.reset, driven [] []]⟩ = .next y1 ∧
      System.act none 1 .reset ⟨[State.reset, driven [] []]⟩ = .next y2 :=
  ⟨_, _, by decide, rfl, rfl⟩

theorem witness_CodecsAreBitOpsCompositions :
    fhDecode [0x3D, 0x00] = .ok (⟨3, true, 2, true, 0⟩, 2) ∧
      cfDecode true 0x02 = .ok ⟨true, false, 0, false, false, false⟩ ∧
      cfDecode false 0xF6 = .ok ⟨true, true, 2, true, true, true⟩ := ⟨rfl, rfl, rfl⟩

/-- Fields of 1 and 4 bytes, and a non-minimal one. -/
theorem isRlField_examples :
    isRlField [0x7F] ∧ isRlField [0xFF, 0xFF, 0xFF, 0x7F] ∧ isRlField [0x80, 0x00] :=
  ⟨⟨[], 0x7F, rfl, by decide, by simp [allContinue], by decide⟩,
    ⟨[0xFF, 0xFF, 0xFF], 0x7F, rfl, by decide, by simp [allContinue], by decide⟩,
    ⟨[0x80], 0x00, rfl, by decide, by simp [allContinue], by decide⟩⟩

/-- The three clauses of RL.DEC: a field with bytes after it, four continuing bytes, and 3 and 0. -/
theorem witness_RlDecDecodesTheLeadingField :
    (isRlField [0xFF, 0xFF, 0xFF, 0x7F] ∧
        (driven [] [0xFF, 0xFF, 0xFF, 0x7F, 0x01]).req.holds ([0xFF, 0xFF, 0xFF, 0x7F] ++ [0x01])) ∧
      (allContinue [0x80, 0x80, 0x80, 0x80] ∧
        (driven [] [0x80, 0x80, 0x80, 0x80, 0x00]).req.holds ([0x80, 0x80, 0x80, 0x80] ++ [0x00])) ∧
      (allContinue [0xFF, 0xFF, 0xFF] ∧ (driven [] [0xFF, 0xFF, 0xFF]).req.holds [0xFF, 0xFF, 0xFF]) ∧
      (allContinue [] ∧ (driven [] []).req.holds []) :=
  ⟨⟨isRlField_examples.2.1, driven_holds _ _⟩, ⟨by simp [allContinue], driven_holds _ _⟩,
    ⟨by simp [allContinue], driven_holds _ _⟩, by simp [allContinue], driven_holds _ _⟩

/-- The largest value in range and the first above it. -/
theorem witness_RlEncEmitsTheMinimalField :
    (driven [(.value, 268435455)] []).req.aValue.toNat ≤ 268435455 ∧
      268435455 < (driven [(.value, 268435456)] []).req.aValue.toNat := by decide

theorem witness_RemainingLengthRoundTrip :
    (driven [(.value, 0)] []).req.aValue.toNat ≤ 268435455 ∧
      (driven [(.value, 268435455)] []).req.aValue.toNat ≤ 268435455 := by decide

/-- A minimal and a non-minimal field (R86). -/
theorem witness_ReencodingIsTheIdentityExactlyOnMinimalFields :
    rlDecode [0x80, 0x01] = .ok (128, 2) ∧ rlDecode [0x80, 0x00] = .ok (0, 2) := ⟨rfl, rfl⟩

/-- The five clauses of FH.DEC, packet types 0 and 15 among them. -/
theorem witness_FhDecDecodesTheFixedHeader :
    ((0x00 : Byte).toNat / 2 % 4 ≠ 3 ∧ isRlField [0x7F] ∧
        (driven [] [0x00, 0x7F]).req.holds (0x00 :: ([0x7F] ++ []))) ∧
      ((0xF4 : Byte).toNat / 2 % 4 ≠ 3 ∧ isRlField [0xFF, 0xFF, 0xFF, 0x7F] ∧
        (driven [] [0xF4, 0xFF, 0xFF, 0xFF, 0x7F, 0x01]).req.holds
          (0xF4 :: ([0xFF, 0xFF, 0xFF, 0x7F] ++ [0x01]))) ∧
      (driven [] [0x10]).req.holds [0x10] ∧
      ((0x16 : Byte).toNat / 2 % 4 = 3 ∧ (driven [] [0x16, 0x00]).req.holds (0x16 :: 0x00 :: [])) ∧
      (allContinue [0xFF, 0xFF, 0xFF, 0xFF] ∧
        (driven [] [0x10, 0xFF, 0xFF, 0xFF, 0xFF]).req.holds (0x10 :: ([0xFF, 0xFF, 0xFF, 0xFF] ++ []))) ∧
      (allContinue [0x80] ∧ (driven [] [0x10, 0x80]).req.holds (0x10 :: [0x80])) ∧
      (allContinue [0xFF, 0xFF, 0xFF] ∧
        (driven [] [0x10, 0xFF, 0xFF, 0xFF]).req.holds (0x10 :: [0xFF, 0xFF, 0xFF])) :=
  ⟨⟨by decide, isRlField_examples.1, driven_holds _ _⟩,
    ⟨by decide, isRlField_examples.2.1, driven_holds _ _⟩, driven_holds _ _,
    ⟨by decide, driven_holds _ _⟩, ⟨by simp [allContinue], driven_holds _ _⟩,
    ⟨by simp [allContinue], driven_holds _ _⟩, by simp [allContinue], driven_holds _ _⟩

/-- The three clauses of FH.ENC at qos 2 and 3 and the edge of the range. -/
theorem witness_FhEncEmitsTheFixedHeader :
    ((driven [(.ptype, 15), (.qos, 2), (.value, 268435455)] []).req.aQos ≠ 3 ∧
        (driven [(.ptype, 15), (.qos, 2), (.value, 268435455)] []).req.aValue.toNat ≤ 268435455) ∧
      (driven [(.qos, 3)] []).req.aQos = 3 ∧
      ((driven [(.value, 268435456)] []).req.aQos ≠ 3 ∧
        268435455 < (driven [(.value, 268435456)] []).req.aValue.toNat) := by decide

theorem witness_FixedHeaderRoundTrip :
    (driven [(.ptype, 0), (.qos, 2), (.value, 268435455)] []).req.aQos ≠ 3 ∧
      (driven [(.ptype, 0), (.qos, 2), (.value, 268435455)] []).req.aValue.toNat ≤ 268435455 := by decide

/-- Every outcome of the check order of CF.DEC is met (example W12 and the vectors). -/
theorem witness_CfDecChecksThenExtracts :
    ([0xFF, 0x1A, 0x00, 0x06, 0x0A, 0x22, 0x42, 0x82, 0x02].map fun b =>
        (response (exec .cfDec (driven [(.byte, b)] []))).map Prod.fst) =
      [some 0x1302, some 0x1402, some 0x2003, some 0x2103, some 0x2203, some 0x2303, some 0x2403,
        some 0x2503, some 0x0000] := by decide

theorem witness_CfEncPlacesTheFlags :
    (driven [(.wqos, 2)] []).req.aWqos ≠ 3 ∧ (driven [(.wqos, 3)] []).req.aWqos = 3 := by decide

theorem witness_ConnectFlagsRoundTrip :
    cfEncode ⟨true, false, 0, false, false, false⟩ = .ok 0x02 ∧
      cfEncode ⟨true, true, 2, true, true, true⟩ = .ok 0xF6 ∧
      cfDecode false 0xF6 = .ok ⟨true, true, 2, true, true, true⟩ ∧
      cfDecode true 0x02 = .ok ⟨true, false, 0, false, false, false⟩ := ⟨rfl, rfl, rfl, rfl⟩

/-- The seven clauses of CVH.DEC: packet types 0, 15 and 2, lengths 9 and 10. -/
theorem witness_CvhDecChecksThenExtracts :
    ((driven [(.ptype, 0)] []).req.aPtype ≠ 1 ∧ (driven [(.ptype, 0)] []).req.inputPresent) ∧
      ((driven [(.ptype, 15)] []).req.aPtype ≠ 1 ∧ (driven [(.ptype, 15)] []).req.inputPresent) ∧
      ((driven [(.ptype, 1)] ((connectBytes 0x02).take 9)).req.aPtype = 1 ∧
        (driven [(.ptype, 1)] ((connectBytes 0x02).take 9)).req.holds ((connectBytes 0x02).take 9) ∧
        ((connectBytes 0x02).take 9).length < 10) ∧
      ((driven [(.ptype, 1)] [0x00, 0x04, 0x4D, 0x51, 0x54, 0x74, 0x04, 0x02, 0x00, 0x3C]).req.holds
          [0x00, 0x04, 0x4D, 0x51, 0x54, 0x74, 0x04, 0x02, 0x00, 0x3C] ∧
        [0x00, 0x04, 0x4D, 0x51, 0x54, 0x74, 0x04, 0x02, 0x00, 0x3C].take 6 ≠
          ([0x00, 0x04, 0x4D, 0x51, 0x54, 0x54] : List Byte)) ∧
      ((driven [(.ptype, 1)] [0x00, 0x04, 0x4D, 0x51, 0x54, 0x54, 0x03, 0x02, 0x00, 0x3C]).req.holds
          [0x00, 0x04, 0x4D, 0x51, 0x54, 0x54, 0x03, 0x02, 0x00, 0x3C] ∧
        ([0x00, 0x04, 0x4D, 0x51, 0x54, 0x54, 0x03, 0x02, 0x00, 0x3C] : List Byte)[6]? ≠ some 0x04) ∧
      ((driven [(.ptype, 1)] (connectBytes 0x1A)).req.holds (connectBytes 0x1A ++ []) ∧
        cfDecode true 0x1A = .error .reservedQos) ∧
      ((driven [(.ptype, 1)] (connectBytes 0xF6)).req.holds (connectBytes 0xF6 ++ []) ∧
        cfDecode false 0xF6 = .ok ⟨true, true, 2, true, true, true⟩) ∧
      (driven [(.ptype, 1)] (connectBytes 0x02)).req.holds (connectBytes 0x02 ++ []) :=
  ⟨⟨by decide, driven_present _ _⟩, ⟨by decide, driven_present _ _⟩,
    ⟨by decide, driven_holds _ _, by decide⟩, ⟨driven_holds _ _, by decide⟩,
    ⟨driven_holds _ _, by decide⟩, ⟨driven_holds _ _, rfl⟩, ⟨driven_holds _ _, rfl⟩, driven_holds _ _⟩

theorem witness_CvhEncEmitsTheHeader :
    (driven [(.wqos, 2), (.keepalive, 65535)] []).req.aWqos ≠ 3 ∧
      (driven [(.wqos, 3)] []).req.aWqos = 3 := by decide

/-- Restricted with the one record it accepts; unrestricted with every flag set. -/
theorem witness_ConnectHeaderRoundTrip :
    (cfEncode (flagsOperand (driven [(.clean, 1)] []).req) = .ok 0x02 ∧
        cfDecode true 0x02 = .ok ⟨true, false, 0, false, false, false⟩) ∧
      (cfEncode (flagsOperand (driven [(.clean, 1), (.will, 1), (.wqos, 2), (.wretain, 1),
          (.password, 1), (.username, 1)] []).req) = .ok 0xF6 ∧
        cfDecode false 0xF6 = .ok ⟨true, true, 2, true, true, true⟩) := ⟨⟨rfl, rfl⟩, rfl, rfl⟩

/-- The six clauses of FRAME.DEC: types 0, 15 and 1, body lengths 9 and 10, each kind of error. -/
theorem witness_FrameDecRunsTheTwoStages :
    ((0xF0 : Byte).toNat / 16 ≠ 1 ∧ (0xF0 : Byte).toNat / 2 % 4 ≠ 3 ∧ isRlField [0x7F] ∧
        (driven [] [0xF0, 0x7F]).req.holds (0xF0 :: ([0x7F] ++ []))) ∧
      ((0x1C : Byte).toNat / 16 = 1 ∧ (0x1C : Byte).toNat / 2 % 4 ≠ 3 ∧
        isRlField [0xFF, 0xFF, 0xFF, 0x7F] ∧
        (driven [] (0x1C :: ([0xFF, 0xFF, 0xFF, 0x7F] ++ (connectBytes 0x02 ++ [])))).req.holds
          (0x1C :: ([0xFF, 0xFF, 0xFF, 0x7F] ++ (connectBytes 0x02 ++ [])))) ∧
      ((driven [] (0x10 :: ([0x7F] ++ connectBytes 0xF6))).req.holds
          (0x10 :: ([0x7F] ++ connectBytes 0xF6)) ∧
        cvhDecode false 1 (connectBytes 0xF6) = .ok (⟨⟨true, true, 2, true, true, true⟩, 60⟩, 10)) ∧
      ((driven [] (0x10 :: ([0x7F] ++ connectBytes 0x03))).req.holds
          (0x10 :: ([0x7F] ++ connectBytes 0x03)) ∧
        cvhDecode true 1 (connectBytes 0x03) = .error .reservedFlagBit) ∧
      (((connectBytes 0x02).take 9).length < 10 ∧
        (driven [] (0x10 :: ([0x7F] ++ (connectBytes 0x02).take 9))).req.holds
          (0x10 :: ([0x7F] ++ (connectBytes 0x02).take 9))) ∧
      ((driven [] [0x16, 0x00]).req.holds [0x16, 0x00] ∧ fhDecode [0x16, 0x00] = .error .reservedQos) :=
  ⟨⟨by decide, by decide, isRlField_examples.1, driven_holds _ _⟩,
    ⟨by decide, by decide, isRlField_examples.2.1, driven_holds _ _⟩, ⟨driven_holds _ _, rfl⟩,
    ⟨driven_holds _ _, rfl⟩, ⟨by decide, driven_holds _ _⟩, driven_holds _ _, rfl⟩

/-- The three clauses of FRAME.ENC: an empty body, qos 3, and a body one byte above the range. -/
theorem witness_FrameEncEmitsHeaderAndBody :
    ((driven [(.qos, 2)] []).req.aQos ≠ 3 ∧ (driven [(.qos, 2)] []).req.holds []) ∧
      ((driven [(.qos, 3)] []).req.aQos = 3 ∧ (driven [(.qos, 3)] []).req.inputPresent) ∧
      ∃ body : List Byte, (driven [] body).req.aQos ≠ 3 ∧ 268435455 < body.length ∧
        (driven [] body).req.holds body := by
  refine ⟨⟨by decide, driven_holds _ _⟩, ⟨by decide, driven_present _ _⟩, ?_⟩
  have long : ∀ n, ∃ body : List Byte, body.length = n := fun n => ⟨List.replicate n 0, by simp⟩
  obtain ⟨body, hb⟩ := long 268435456
  exact ⟨body, by simp [driven, Request.withInput, Request.initial], by omega, driven_holds _ _⟩

theorem witness_FrameRoundTrip :
    (cfEncode (flagsOperand (driven [(.clean, 1), (.qos, 2)] []).req) = .ok 0x02 ∧
        cfDecode true 0x02 = .ok ⟨true, false, 0, false, false, false⟩ ∧
        (driven [(.clean, 1), (.qos, 2)] []).req.aQos ≠ 3) ∧
      ((driven [(.ptype, 2)] [0x01, 0x00]).req.holds [0x01, 0x00] ∧
        (driven [(.ptype, 2)] [0x01, 0x00]).req.aPtype ≠ 1 ∧
        (driven [(.ptype, 2)] [0x01, 0x00]).req.aQos ≠ 3) :=
  ⟨⟨rfl, rfl, by decide⟩, driven_holds _ _, by decide, by decide⟩

/-- Every kind of host action that completes (R74). -/
theorem witness_HostActionsChangeNoBlockState :
    (∃ h', runStmt none [] (.setIn [0x00]) ⟨0, State.reset⟩ = .next h') ∧
      (∃ h', runStmt none [] .inFromOut
        ⟨0, State.okWith (driven [] []) (Results.ofOut [0x01, 0x00])⟩ = .next h') ∧
      (∃ h', runStmt none [] .inFromRemainder
        ⟨0, State.okWith (driven [] [0x05]) { Results.empty with rRemOff := some 1 }⟩ = .next h') ∧
      (∃ h', runStmt none [] (.copy .ptype .ptype)
        ⟨0, State.okWith (driven [] []) { Results.empty with rPtype := some 1 }⟩ = .next h') ∧
      (∃ h', runStmt none [.label 0] (.branch ⟨.status, true, .num 7⟩ 0) ⟨0, State.reset⟩ = .next h') ∧
      (∃ h', runStmt none [.label 0] (.jump 0) ⟨0, State.reset⟩ = .next h') ∧
      ∃ h', runStmt none [.label 0] (.label 0) ⟨0, State.reset⟩ = .next h' :=
  ⟨⟨_, rfl⟩, ⟨_, rfl⟩, ⟨_, rfl⟩, ⟨_, rfl⟩, ⟨_, rfl⟩, ⟨_, rfl⟩, _, rfl⟩

theorem witness_HostReadOfAnInvalidPortFaults :
    readResult .vh (HostState.mk 0 State.reset).inst = .error (.portHoldsNoValue .vh) := rfl

end Sys2Proof.Tests
end

section
/-! PROOF. The scope statement of R6: which CF_DECODE_RESTRICTED the hardware runs at. -/

namespace Sys2Proof.Proofs.Scope

open Sys2Proof.Machine

/-- The dispatch hands the build-time parameter to the three decoders that read it and to no other
command, so this equation holds whichever value the parameter has (R6). -/
theorem exec_eq_execAt_cfDecodeRestricted (i : Instr) (s : State) :
    exec i s = execAt Config.cfDecodeRestricted i s := by
  cases i with
  | cfDec | cvhDec | frameDec => rfl
  | _ => rfl

theorem cfDecodeRestricted_eq_true : Config.cfDecodeRestricted = true := rfl

/-- Settles O6: `exec` is `execAt` at the build-time parameter, and this hardware fixes that to true. -/
theorem hardwareRunsTheRestrictedDecoders : Obligations.HardwareRunsTheRestrictedDecoders := by
  intro i s
  rw [exec_eq_execAt_cfDecodeRestricted, cfDecodeRestricted_eq_true]

end Sys2Proof.Proofs.Scope
end

section
/-! PROOF. The support of the statements about the state: a command is a function of its request, what
a command that returns leaves in the result ports, and the fields of STATUS. -/

namespace Sys2Proof.Proofs.Responses

open Sys2Proof.Machine

/-! ## A command is a function of the request (R20, R63) -/

/-- `withInput` looks at the request alone. -/
theorem withInput_congr (f : List Byte → Except Reason Results) {s t : State} (h : s.req = t.req) :
    withInput f s = withInput f t := by
  simp only [withInput, h]
  cases snapshotIn t.req with
  | none => rfl
  | some bs => simp [respond_congr (f bs) h]

/-- States with the same request answer a command alike, whatever their last responses. -/
theorem exec_congr (i : Instr) {s t : State} (h : s.req = t.req) : exec i s = exec i t := by
  cases hi : readsIn i with
  | true =>
    simp only [Scope.hardwareRunsTheRestrictedDecoders i, execAt_of_readsIn hi, h]
    exact withInput_congr _ h
  | false =>
    rw [exec_of_not_readsIn hi s [], exec_of_not_readsIn hi t [], h, respond_congr _ h]

/-- A command whose request is one of the interface completes (R51). -/
theorem exec_terminates {i : Instr} {s : State} (h : readsIn i = true → s.req.inputPresent) :
    ∃ t, exec i s = .next t := by
  cases hi : readsIn i with
  | true =>
    obtain ⟨bs, hb⟩ := (exists_holds_iff s.req).2 (h hi)
    exact ⟨_, exec_of_holds hb i⟩
  | false => exact ⟨_, exec_of_not_readsIn hi s []⟩

/-- The step of a state whose CMD decodes is that command. -/
theorem step_of_decode {s : State} {i : Instr} (h : decodeCmd s.req.cmd = .ok i) :
    step s = exec i s := by
  simp only [step, fetchCmd, h]

/-- The step of a state whose CMD is no row of the table. -/
theorem step_of_reject {s : State} {e : CmdReject} (h : decodeCmd s.req.cmd = .error e) :
    step s = illegalCommand s := by
  simp only [step, fetchCmd, h]

/-- Every CMD completes on a request whose IN is present. -/
theorem step_terminates {s : State} (h : s.req.inputPresent) : ∃ t, step s = .next t := by
  cases hc : decodeCmd s.req.cmd with
  | ok i => exact step_of_decode hc ▸ exec_terminates fun _ => h
  | error e => exact ⟨_, step_of_reject hc⟩

/-! ## What a command that returns has computed -/

/-- The results with which a command can return, over the bytes `bs` of IN: one constructor per shape of
the response, with the call that gave its values. The encoders that write OUT share one, whatever they
emit. -/
inductive Returns (restricted : Bool) (q : Request) (bs : List Byte) : Instr → Results → Prop where
  | bitGet : Returns restricted q bs .bitGet
      { Results.empty with rBit := some (bitGet q.aByte q.aBitIdx) }
  | bitSet : Returns restricted q bs .bitSet
      { Results.empty with rByte := some (bitSet q.aByte q.aBitIdx q.aBitVal) }
  | cfEnc {v : Byte} (e : cfEncode (flagsOperand q) = .ok v) :
      Returns restricted q bs .cfEnc { Results.empty with rByte := some v }
  | emits {i : Instr} (hi : i ∈ [.rlEnc, .fhEnc, .cvhEnc, .cavhEnc, .frameEnc]) (out : List Byte) :
      Returns restricted q bs i (Results.ofOut out)
  | rlDec {v n : Nat} (e : rlDecode bs = .ok (v, n)) :
      Returns restricted q bs .rlDec
        { Results.empty with
          rValue := some (BitVec.ofNat 28 v)
          rConsumed := some (BitVec.ofNat 3 n)
          rRemOff := some n }
  | fhDec {h : FixedHeader} {off : Nat} (e : fhDecode bs = .ok (h, off)) :
      Returns restricted q bs .fhDec { withHeader h Results.empty with rRemOff := some off }
  | cfDec {c : ConnectFlags} (e : cfDecode restricted q.aByte = .ok c) :
      Returns restricted q bs .cfDec (withFlags c Results.empty)
  | cvhDec {h : ConnectHeader} {off : Nat} (e : cvhDecode restricted q.aPtype bs = .ok (h, off)) :
      Returns restricted q bs .cvhDec { withConnect h Results.empty with rRemOff := some off }
  | frameStage1 {h : FixedHeader} {off : Nat} (e : fhDecode bs = .ok (h, off)) :
      Returns restricted q bs .frameDec
        { withHeader h Results.empty with rVh := some false, rRemOff := some off }
  | frameStage2 {h : FixedHeader} {off : Nat} {v : ConnectHeader} {off2 : Nat}
      (e : fhDecode bs = .ok (h, off))
      (ev : cvhDecode restricted h.packetType (bs.drop off) = .ok (v, off2)) :
      Returns restricted q bs .frameDec
        { withConnect v (withHeader h Results.empty) with
          rVh := some true
          rRemOff := some (off + off2) }

/-- Every response that is no error has one of these shapes. -/
theorem returns_of_responseOf {restricted : Bool} {i : Instr} {q : Request} {bs : List Byte} {r : Results}
    (h : responseOf restricted i q bs = .ok r) : Returns restricted q bs i r := by
  cases i with
  | bitGet => cases h; exact .bitGet
  | bitSet => cases h; exact .bitSet
  | rlDec =>
    simp only [responseOf, rlDecResults] at h
    split at h <;> cases h
    exact .rlDec ‹_›
  | fhDec =>
    simp only [responseOf, fhDecResults] at h
    split at h <;> cases h
    exact .fhDec ‹_›
  | cfDec =>
    simp only [responseOf, cfDecResults] at h
    split at h <;> cases h
    exact .cfDec ‹_›
  | cfEnc =>
    simp only [responseOf, cfEncResults] at h
    split at h <;> cases h
    exact .cfEnc ‹_›
  | cvhDec =>
    simp only [responseOf, cvhDecResults] at h
    split at h <;> cases h
    exact .cvhDec ‹_›
  | frameDec =>
    simp only [responseOf, frameDecResults] at h
    split at h
    · cases h
    · split at h
      · split at h <;> cases h
        exact .frameStage2 ‹_› ‹_›
      · cases h
        exact .frameStage1 ‹_›
  | rlEnc | fhEnc | cvhEnc | frameEnc =>
    simp only [responseOf, rlEncResults, fhEncResults, cvhEncResults, frameEncResults, emitAll_eq] at h
    split at h <;> cases h
    exact .emits (by decide) _
  | cavhEnc =>
    simp only [responseOf, emitAll_eq] at h
    cases h
    exact .emits (by decide) _
  | reservedCavhDec => cases h

/-- Everything a command that completes can do: raise a reason, or return with a response computed over the
bytes IN holds. -/
theorem exec_cases {i : Instr} {s t : State} (h : exec i s = .next t) :
    (∃ e, t = raiseError e s) ∨
      ∃ bs r, (readsIn i = true → s.req.holds bs) ∧ Returns true s.req bs i r ∧ t = complete r s := by
  obtain ⟨bs, hb, rfl⟩ := exec_next h
  cases hr : responseOf true i s.req bs with
  | error e => exact .inl ⟨e, rfl⟩
  | ok r => exact .inr ⟨bs, r, hb, returns_of_responseOf hr, rfl⟩

/-- The same of a step, whatever CMD holds. -/
theorem step_cases {s t : State} (h : step s = .next t) :
    (∃ e, t = raiseError e s) ∨
      ∃ i bs r, (readsIn i = true → s.req.holds bs) ∧ Returns true s.req bs i r ∧ t = complete r s := by
  rcases step_next h with ⟨i, -, h⟩ | rfl
  · exact (exec_cases h).imp_right fun ⟨bs, r, hr⟩ => ⟨i, bs, r, hr⟩
  · exact .inl ⟨_, rfl⟩

/-! ## The values the decoders return -/

theorem rlDecode_consumed {bs : List Byte} {v n : Nat} (h : rlDecode bs = .ok (v, n)) :
    1 ≤ n ∧ n ≤ 4 ∧ n ≤ bs.length := by
  obtain ⟨f, rest, rfl, hf, -, rfl⟩ := (rlDecode_ok_iff bs v n).1 h
  obtain ⟨h1, h4⟩ := isRlField_length hf
  exact ⟨h1, h4, by simp⟩

theorem fhDecode_offset {bs : List Byte} {h : FixedHeader} {off : Nat} (e : fhDecode bs = .ok (h, off)) :
    2 ≤ off ∧ off ≤ 5 ∧ off ≤ bs.length := by
  obtain ⟨b0, f, rest, rfl, -, hf, -, rfl⟩ := (fhDecode_ok_iff bs h off).1 e
  obtain ⟨h1, h4⟩ := isRlField_length hf
  simp only [List.length_cons, List.length_append]
  omega

theorem cvhDecode_offset {restricted : Bool} {pt : BitVec 4} {bs : List Byte} {h : ConnectHeader}
    {off : Nat} (e : cvhDecode restricted pt bs = .ok (h, off)) : off = 10 ∧ 10 ≤ bs.length := by
  obtain ⟨-, hoff, f, hi, lo, rest, rfl, -⟩ := cvhDecode_ok e
  exact ⟨hoff, by simp⟩

theorem fhDecode_qos_le {bs : List Byte} {h : FixedHeader} {off : Nat} (e : fhDecode bs = .ok (h, off)) :
    h.qos.toNat ≤ 2 := by
  obtain ⟨b0, f, rest, -, hq, -, rfl, -⟩ := (fhDecode_ok_iff bs h off).1 e
  exact toNat_le_two_of_ne ((qosField_eq_three_iff b0).not.2 hq)

theorem cfDecode_willQos_le {restricted : Bool} {f : Byte} {c : ConnectFlags}
    (e : cfDecode restricted f = .ok c) : c.willQos.toNat ≤ 2 :=
  toNat_le_two_of_ne (cfDecode_ok e).2

theorem cvhDecode_willQos_le {restricted : Bool} {pt : BitVec 4} {bs : List Byte} {h : ConnectHeader}
    {off : Nat} (e : cvhDecode restricted pt bs = .ok (h, off)) : h.connectFlags.willQos.toNat ≤ 2 := by
  obtain ⟨-, -, f, hi, lo, rest, -, hf, -⟩ := cvhDecode_ok e
  exact cfDecode_willQos_le hf

/-! ## The fields of STATUS (R25) -/

/-- The bits of a STATUS word: CLASS, the reserved bits, REASON. -/
theorem getLsbD_statusWord (c : OutcomeClass) (v : Byte) (j : Nat) :
    (statusWord c v).getLsbD j =
      if j < 3 then c.code.getLsbD j else if j < 8 then false else v.getLsbD (j - 8) := by
  have h : (statusWord c v).getLsbD j = ((v ++ 0#5) ++ c.code).getLsbD j := rfl
  rw [h, BitVec.getLsbD_append, BitVec.getLsbD_append, BitVec.getLsbD_zero, Nat.sub_sub]
  simp only [show j - 3 < 5 ↔ j < 8 by omega]

@[simp] theorem statusClass_statusWord (c : OutcomeClass) (v : Byte) :
    statusClass (statusWord c v) = c.code := by
  ext j hj
  simp [statusClass, getLsbD_statusWord, hj]

@[simp] theorem statusReserved_statusWord (c : OutcomeClass) (v : Byte) :
    statusReserved (statusWord c v) = 0 := by
  ext j hj
  simp [statusReserved, getLsbD_statusWord, show 3 + j < 8 by omega]

@[simp] theorem statusReason_statusWord (c : OutcomeClass) (v : Byte) :
    statusReason (statusWord c v) = v := by
  ext j hj
  simp [statusReason, getLsbD_statusWord, show ¬ 8 + j < 3 by omega, BitVec.getLsbD_eq_getElem hj]

theorem reason_code_ne_zero (e : Reason) : e.code ≠ 0 := by cases e <;> decide

theorem reason_class_ne_zero (e : Reason) : e.cls.code ≠ 0 := by cases e <;> decide

theorem reason_class_le_five (e : Reason) : e.cls.code.toNat ≤ 5 := by cases e <;> decide

theorem statusClass_statusOf (e : Reason) : statusClass (statusOf e) ≠ 0 := by
  rw [statusOf, statusClass_statusWord]
  exact reason_class_ne_zero e

end Sys2Proof.Proofs.Responses
end

section
/-! PROOF. The statements of 10_state.md: the invariant, the fields of STATUS, which result ports are
valid, which request ports matter, R_REM_OFF, the step and reset. -/

namespace Sys2Proof.Proofs.StateRules

open Sys2Proof.Machine Sys2Proof.Proofs.Responses

/-! ## Well-formed responses (R24, R26, R52) -/

@[simp] theorem whenValid_none {α : Type} (P : α → Prop) : whenValid none P := nofun

@[simp] theorem whenValid_some {α : Type} (a : α) (P : α → Prop) : whenValid (some a) P ↔ P a := by
  simp [whenValid]

theorem outWf_of_no_out {r : Results} (ho : r.out = []) (hl : r.outLen = none) : r.outWf := by
  simp [Results.outWf, ho, hl, Memory.read]

theorem ofOut_outWf (bs : List Byte) : (Results.ofOut bs).outWf :=
  ⟨ofBytes_wf bs, fun i => by simp [Results.ofOut]⟩

/-- The 3 bits of R_CONSUMED hold every length of a Remaining Length field. -/
theorem toNat_ofNat_consumed {n : Nat} (h : n ≤ 4) : (BitVec.ofNat 3 n).toNat = n := by
  rw [BitVec.toNat_ofNat]
  omega

/-- What a command returns with is well-formed and in the ranges of R24. -/
theorem returns_wf {restricted : Bool} {q : Request} {bs : List Byte} {i : Instr} {r : Results}
    (h : Returns restricted q bs i r) : r.outWf ∧ r.inRange := by
  cases h with
  | bitGet | bitSet | cfEnc =>
    exact ⟨outWf_of_no_out rfl rfl, by simp [Results.inRange, Results.empty]⟩
  | emits _ out => exact ⟨ofOut_outWf out, by simp [Results.inRange, Results.ofOut, Results.empty]⟩
  | rlDec e =>
    obtain ⟨h1, h4, -⟩ := rlDecode_consumed e
    exact ⟨outWf_of_no_out rfl rfl,
      by simp [Results.inRange, Results.empty, toNat_ofNat_consumed h4, h1, h4]⟩
  | fhDec e | frameStage1 e =>
    exact ⟨outWf_of_no_out rfl rfl,
      by simp [Results.inRange, Results.empty, withHeader, fhDecode_qos_le e]⟩
  | cfDec e =>
    exact ⟨outWf_of_no_out rfl rfl,
      by simp [Results.inRange, Results.empty, withFlags, cfDecode_willQos_le e]⟩
  | cvhDec e =>
    exact ⟨outWf_of_no_out rfl rfl, by
      simp [Results.inRange, Results.empty, withConnect, withFlags, cvhDecode_willQos_le e,
        Config.protocolLevel]⟩
  | frameStage2 e ev =>
    exact ⟨outWf_of_no_out rfl rfl, by
      simp [Results.inRange, Results.empty, withConnect, withFlags, withHeader, fhDecode_qos_le e,
        cvhDecode_willQos_le ev, Config.protocolLevel]⟩

/-- With no port valid, a response is well-formed as soon as its STATUS is a word the block writes. -/
theorem responseWf_of_empty {s : State} (hs : statusWritten s.status) (hr : s.res = Results.empty) :
    s.responseWf := by
  refine ⟨hs, fun _ => hr, ?_, ?_⟩ <;> rw [hr]
  · exact outWf_of_no_out rfl rfl
  · simp [Results.inRange, Results.empty]

theorem raiseError_responseWf (e : Reason) (s : State) : (raiseError e s).responseWf :=
  responseWf_of_empty (.inr (.inr ⟨e, rfl⟩)) rfl

theorem complete_responseWf {r : Results} (h : r.outWf ∧ r.inRange) (s : State) :
    (complete r s).responseWf :=
  ⟨.inr (.inl rfl), fun hne => absurd rfl hne, h⟩

/-- The response of every step is well-formed, whatever state it starts from. -/
theorem step_responseWf {s t : State} (h : step s = .next t) : t.responseWf := by
  rcases step_cases h with ⟨e, rfl⟩ | ⟨i, bs, r, -, hr, rfl⟩
  · exact raiseError_responseWf e s
  · exact complete_responseWf (returns_wf hr) s

/-- Settles O9: a step leaves the request, and its own response is well-formed. -/
theorem everyStepKeepsTheInvariant : Obligations.EveryStepKeepsTheInvariant := by
  intro s t hs h
  obtain ⟨hreq, -⟩ := hs
  exact ⟨step_req h ▸ hreq, step_responseWf h⟩

/-! ## Requests the host drives (R51, R53, R74) -/

/-- Whether a request is one of the interface depends on IN and IN_LEN alone. -/
theorem wf_of_same_input {q q' : Request} (hi : q'.inp = q.inp) (hl : q'.inLen = q.inLen) (h : q.wf) :
    q'.wf := by
  simpa only [Request.wf, hi, hl] using h

theorem withInput_wf {bs : List Byte} (h : Config.fits Config.maxBufLen bs.length = true) (q : Request) :
    (q.withInput bs).wf :=
  ⟨ofBytes_wf bs, fun i => by simp, h⟩

theorem fits_zero (bound : Option Nat) : Config.fits bound 0 = true := by
  cases bound <;> simp [Config.fits]

theorem initial_wf : Request.initial.wf :=
  withInput_wf (bs := []) (fits_zero _) Request.initial

/-- Settles O8: IN is empty at reset, and no port is valid. -/
theorem resetMeetsTheInvariant : Obligations.ResetMeetsTheInvariant :=
  ⟨initial_wf, responseWf_of_empty (.inl rfl) rfl⟩

/-- How one program statement can change the request: it keeps IN and IN_LEN, or gives IN a new sequence
within MAX_BUF_LEN. -/
def HostDrives (bound : Option Nat) (q q' : Request) : Prop :=
  (q'.inp = q.inp ∧ q'.inLen = q.inLen) ∨
    ∃ bs, Config.fits bound bs.length = true ∧ q' = q.withInput bs

theorem HostDrives.wf {q q' : Request} (h : HostDrives Config.maxBufLen q q') (hq : q.wf) : q'.wf := by
  rcases h with ⟨hi, hl⟩ | ⟨bs, hf, rfl⟩
  · exact wf_of_same_input hi hl hq
  · exact withInput_wf hf q

theorem drivePort_input {p : APort} {v : Nat} {q q' : Request} (h : drivePort p v q = .ok q') :
    q'.inp = q.inp ∧ q'.inLen = q.inLen := by
  unfold drivePort at h
  split at h <;> cases h
  exact ⟨set_inp p v q, set_inLen p v q⟩

theorem drivePorts_input {ports : List (APort × Nat)} {q q' : Request} (h : drivePorts ports q = .ok q') :
    q'.inp = q.inp ∧ q'.inLen = q.inLen := by
  induction ports generalizing q with
  | nil => cases h; exact ⟨rfl, rfl⟩
  | cons pv rest ih =>
    simp only [drivePorts] at h
    split at h
    · cases h
    · rename_i q1 h1
      obtain ⟨hi, hl⟩ := ih h
      obtain ⟨hi1, hl1⟩ := drivePort_input h1
      exact ⟨hi.trans hi1, hl.trans hl1⟩

/-- What one program statement can do to the state it drives: drive its request, and then issue a command
or not (R74, R75). -/
def HostActs (bound : Option Nat) (s s' : State) : Prop :=
  ∃ q, HostDrives bound s.req q ∧ (s' = { s with req := q } ∨ step { s with req := q } = .next s')

theorem HostActs.refl (bound : Option Nat) (s : State) : HostActs bound s s :=
  ⟨s.req, .inl ⟨rfl, rfl⟩, .inl rfl⟩

theorem gotoLabel_acts {prog : List Stmt} {l : Nat} {s : State} {h' : HostState} (bound : Option Nat)
    (e : gotoLabel prog l s = .next h') : HostActs bound s h'.inst := by
  unfold gotoLabel at e
  split at e <;> cases e
  exact .refl bound s

theorem replaceIn_acts {bound : Option Nat} {bs : List Byte} {h h' : HostState}
    (e : replaceIn bound bs h = .next h') : HostActs bound h.inst h'.inst := by
  unfold replaceIn at e
  split at e <;> cases e
  exact ⟨_, .inr ⟨bs, ‹_›, rfl⟩, .inl rfl⟩

theorem runStmt_acts {bound : Option Nat} {prog : List Stmt} {st : Stmt} {h h' : HostState}
    (e : runStmt bound prog st h = .next h') : HostActs bound h.inst h'.inst := by
  cases st with
  | command c ports =>
    simp only [runStmt] at e
    split at e
    · cases e
    · rename_i q hq
      split at e <;> cases e
      exact ⟨q, .inl (by simpa using drivePorts_input hq), .inr ‹_›⟩
  | setIn bytes => exact replaceIn_acts e
  | inFromOut =>
    simp only [runStmt] at e
    split at e
    · exact replaceIn_acts e
    · cases e
    · cases e
  | inFromRemainder =>
    simp only [runStmt] at e
    split at e
    · cases e
    · cases e
    · exact replaceIn_acts e
  | copy a r =>
    simp only [runStmt] at e
    split at e
    · cases e
    · cases e
    · split at e <;> cases e
      exact ⟨_, .inl (drivePort_input ‹_›), .inl rfl⟩
  | branch c l =>
    simp only [runStmt] at e
    split at e
    · cases e
    · exact gotoLabel_acts bound e
    · cases e
      exact .refl bound _
  | jump l => exact gotoLabel_acts bound e
  | label l =>
    cases e
    exact .refl bound _

theorem hostStep_acts {bound : Option Nat} {prog : List Stmt} {h h' : HostState}
    (e : hostStep bound prog h = .next h') : HostActs bound h.inst h'.inst := by
  unfold hostStep at e
  split at e
  · exact runStmt_acts e
  · cases e
    exact .refl bound _

/-- Settles O10: a driven request stays one of the interface, and a command keeps the invariant. -/
theorem everyHostStatementKeepsTheInvariant : Obligations.EveryHostStatementKeepsTheInvariant := by
  intro prog h h' hinv e
  obtain ⟨hreq, hresp⟩ := hinv
  obtain ⟨q, hq, hi | hstep⟩ := hostStep_acts e
  · rw [hi]
    exact ⟨hq.wf hreq, hresp⟩
  · exact everyStepKeepsTheInvariant { h.inst with req := q } _ ⟨hq.wf hreq, hresp⟩ hstep

/-! ## STATUS after a step (R25, R26) -/

/-- Settles O11: STATUS is the word of OK, whose fields are all zero, or that of a reason, whose class and
code are not. -/
theorem statusFieldsAfterEveryStep : Obligations.StatusFieldsAfterEveryStep := by
  intro s t h
  rcases step_cases h with ⟨e, rfl⟩ | ⟨i, bs, r, -, -, rfl⟩
  · rw [raiseError_status, statusOf, statusReserved_statusWord, statusClass_statusWord,
      statusReason_statusWord]
    exact ⟨rfl, reason_class_le_five e, iff_of_false (reason_code_ne_zero e) (reason_class_ne_zero e)⟩
  · simp [statusOk, OutcomeClass.code]

/-! ## Which result ports are valid (R27, R71) -/

theorem readResult_ok_iff (p : RPort) (s : State) :
    (∃ v, readResult p s = .ok v) ↔ (p.value? s.res).isSome := by
  unfold readResult
  cases p.value? s.res <;> simp

theorem readResult_of_no_value {p : RPort} {s : State} (h : ¬ (p.value? s.res).isSome) :
    readResult p s = .error (.portHoldsNoValue p) := by
  unfold readResult
  rw [Option.not_isSome_iff_eq_none.1 h]

theorem not_valid_empty (p : RPort) : ¬ (p.value? Results.empty).isSome := by
  cases p <;> simp [RPort.value?, Results.empty]

theorem portsWritten_of_emits {i : Instr} (hi : i ∈ [.rlEnc, .fhEnc, .cvhEnc, .cavhEnc, .frameEnc])
    (stage2 : Bool) : portsWritten i stage2 = [.out, .outLen] := by
  simp only [List.mem_cons, List.not_mem_nil, or_false] at hi
  rcases hi with rfl | rfl | rfl | rfl | rfl <;> rfl

/-- A command that returns makes exactly the ports of R71 valid. -/
theorem returns_valid_iff {restricted : Bool} {q : Request} {bs : List Byte} {i : Instr} {r : Results}
    (h : Returns restricted q bs i r) (p : RPort) :
    (p.value? r).isSome ↔ p ∈ portsWritten i (r.rVh == some true) := by
  cases h with
  | emits hi out =>
    rw [portsWritten_of_emits hi]
    cases p <;> simp [RPort.value?, Results.ofOut, Results.empty]
  | bitGet | bitSet | cfEnc | rlDec => cases p <;> simp [RPort.value?, Results.empty, portsWritten]
  | fhDec | frameStage1 => cases p <;> simp [RPort.value?, Results.empty, withHeader, portsWritten]
  | cfDec => cases p <;> simp [RPort.value?, Results.empty, withFlags, portsWritten]
  | cvhDec => cases p <;> simp [RPort.value?, Results.empty, withConnect, withFlags, portsWritten]
  | frameStage2 =>
    cases p <;> simp [RPort.value?, Results.empty, withConnect, withFlags, withHeader, portsWritten]

/-- Settles O14: a raised reason leaves no port valid, and a return exactly those R71 lists. -/
theorem exactlyTheWrittenPortsAreValid : Obligations.ExactlyTheWrittenPortsAreValid := by
  intro i s t h
  refine ⟨?_, ?_, fun p hp => readResult_of_no_value ((readResult_ok_iff p t).not.1 hp)⟩ <;>
    rcases exec_cases h with ⟨e, rfl⟩ | ⟨bs, r, -, hr, rfl⟩ <;> intro hc
  · exact absurd hc (statusClass_statusOf e)
  · exact fun p => (readResult_ok_iff p _).trans (returns_valid_iff hr p)
  · exact ⟨fun p => readResult_of_no_value (not_valid_empty p), rfl⟩
  · exact absurd rfl hc

/-! ## Which request ports matter (R29, R35) -/

theorem bool_toNat_inj (a b : Bool) : a.toNat = b.toNat ↔ a = b := by
  cases a <;> cases b <;> decide

/-- What a command computes is settled by the ports R71 says it reads, and by the bytes of IN. -/
theorem responseOf_congr {restricted : Bool} {i : Instr} {q q' : Request}
    (h : ∀ p ∈ portsRead i, p.get q = p.get q') (bs : List Byte) :
    responseOf restricted i q bs = responseOf restricted i q' bs := by
  cases i with
  | rlDec | fhDec | frameDec | reservedCavhDec => rfl
  | rlEnc | cfDec | cvhDec =>
    simp only [portsRead, List.forall_mem_cons, APort.get, BitVec.toNat_inj] at h
    simp only [responseOf, rlEncResults, cfDecResults, cvhDecResults, h]
  | bitGet | bitSet | cavhEnc | fhEnc | frameEnc =>
    simp only [portsRead, List.forall_mem_cons, APort.get, BitVec.toNat_inj, bool_toNat_inj] at h
    simp only [responseOf, fhEncResults, frameEncResults, h]
  | cfEnc | cvhEnc =>
    simp only [portsRead, List.forall_mem_cons, APort.get, BitVec.toNat_inj, bool_toNat_inj] at h
    simp only [responseOf, cfEncResults, cvhEncResults, flagsOperand, h]

/-- INs that agree on IN_LEN and on every byte hold the same sequence (R51). -/
theorem holds_congr {q q' : Request} {bs : List Byte} (hl : q.inLen = q'.inLen)
    (hr : ∀ k, k < q.inLen → Memory.read q.inp k = Memory.read q'.inp k) (h : q.holds bs) :
    q'.holds bs := by
  obtain ⟨hlen, hread⟩ := h
  exact ⟨hl ▸ hlen, fun k hk => (hr k (hlen ▸ hk)).symm.trans (hread k hk)⟩

/-- The response side that a command leaves does not depend on the state it ended in (R29). -/
theorem respond_status_res (r : Except Reason Results) (s s' : State) :
    (respond r s).status = (respond r s').status ∧ (respond r s).res = (respond r s').res := by
  cases r <;> simp

/-- Settles O16: both requests present the command with the same bytes, and it computes the same from
them. -/
theorem unreadPortsHaveNoEffect : Obligations.UnreadPortsHaveNoEffect := by
  intro i s s' hin hagree
  obtain ⟨hports, hbytes⟩ := hagree
  have hrun : ∃ bs, exec i s = .next (respond (responseOf true i s.req bs) s) ∧
      exec i s' = .next (respond (responseOf true i s'.req bs) s') := by
    cases hi : readsIn i with
    | true =>
      obtain ⟨bs, hb⟩ := (exists_holds_iff s.req).2 (hin hi)
      obtain ⟨hl, hr⟩ := hbytes hi
      exact ⟨bs, exec_of_holds hb i, exec_of_holds (holds_congr hl hr hb) i⟩
    | false => exact ⟨[], exec_of_not_readsIn hi s [], exec_of_not_readsIn hi s' []⟩
  obtain ⟨bs, he, he'⟩ := hrun
  rw [responseOf_congr hports] at he
  exact ⟨_, _, he, he', respond_status_res _ s s'⟩

/-- Settles O17: a command sees the request alone. -/
theorem earlierOutcomesHaveNoEffect : Obligations.EarlierOutcomesHaveNoEffect := by
  intro i s t w r h
  rw [← h]
  exact exec_congr i rfl

/-! ## R_REM_OFF (R24) -/

/-- Only the four decoders of IN write R_REM_OFF, each within IN and within its own range. -/
theorem returns_remOff {restricted : Bool} {q : Request} {bs : List Byte} {i : Instr} {r : Results} {n : Nat}
    (h : Returns restricted q bs i r) (hn : r.rRemOff = some n) :
    readsIn i = true ∧ n ≤ bs.length ∧ (i = .rlDec → 1 ≤ n ∧ n ≤ 4) ∧ (i = .fhDec → 2 ≤ n ∧ n ≤ 5) ∧
      (i = .cvhDec → n = 10) ∧ (i = .frameDec → 2 ≤ n ∧ n ≤ 15) := by
  cases h with
  | bitGet | bitSet | cfEnc | emits | cfDec => cases hn
  | rlDec e =>
    cases hn
    obtain ⟨h1, h4, hl⟩ := rlDecode_consumed e
    simp [readsIn, hl, h1, h4]
  | fhDec e =>
    cases hn
    obtain ⟨h2, h5, hl⟩ := fhDecode_offset e
    simp [readsIn, hl, h2, h5]
  | cvhDec e =>
    cases hn
    obtain ⟨rfl, hl⟩ := cvhDecode_offset e
    simp [readsIn, hl]
  | frameStage1 e =>
    cases hn
    obtain ⟨h2, h5, hl⟩ := fhDecode_offset e
    simp [readsIn, hl, h2]
    omega
  | frameStage2 e ev =>
    cases hn
    obtain ⟨h2, h5, hl⟩ := fhDecode_offset e
    obtain ⟨rfl, hl2⟩ := cvhDecode_offset ev
    rw [List.length_drop] at hl2
    simp [readsIn]
    omega

/-- Settles O21: IN_LEN is the length of the bytes the decoder ran over. -/
theorem remainderOffsetLiesWithinIn : Obligations.RemainderOffsetLiesWithinIn := by
  intro i s t n h hn
  rcases exec_cases h with ⟨e, rfl⟩ | ⟨bs, r, hb, hr, rfl⟩
  · cases hn
  · obtain ⟨hi, hle, hranges⟩ := returns_remOff hr hn
    obtain ⟨hlen, -⟩ := hb hi
    exact ⟨hlen ▸ hle, hranges⟩

/-! ## The step and reset (R21, R32, R70, R270) -/

/-- A table word names the row that the CMD byte it drives decodes to. -/
theorem decodeCmd_of_decodeTableWord {nbits w : Nat} {i : Instr} (h : decodeTableWord nbits w = some i) :
    decodeCmd (BitVec.ofNat 8 (w % 2 ^ nbits)) = .ok i := by
  unfold decodeTableWord at h
  split at h
  · split at h <;> cases h
    assumption
  · cases h

/-- Settles O3: on the CMD the port holds, and on the one a table word drives it to. -/
theorem stepRunsTheDecodedCommand : Obligations.StepRunsTheDecodedCommand :=
  ⟨fun _ _ h => step_of_decode h, fun _ _ _ h => step_of_decode (decodeCmd_of_decodeTableWord h)⟩

/-- Settles O7: reset clears the response and keeps the request, on which any CMD completes. -/
theorem resetLeavesIdleAndNoResult : Obligations.ResetLeavesIdleAndNoResult :=
  have cleared (s : State) (h : s.res = Results.empty) (p : RPort) :
      readResult p s = .error (.portHoldsNoValue p) :=
    readResult_of_no_value (h ▸ not_valid_empty p)
  ⟨rfl, cleared _ rfl, fun s => ⟨rfl, resetInstance_req s, cleared _ rfl⟩, fun _ h => step_terminates h⟩

end Sys2Proof.Proofs.StateRules
end

section
/-! PROOF. The statements about the memory IN: a repeated request answers alike, and a command stops
only where IN is incomplete. -/

namespace Sys2Proof.Proofs.MemoryRules

open Sys2Proof.Machine Sys2Proof.Proofs.Responses

/-! ## A step is a function of the request (R57, R63) -/

/-- States with the same request step alike, an illegal CMD among them. -/
theorem step_congr {s t : State} (h : s.req = t.req) : step s = step t := by
  cases hc : decodeCmd s.req.cmd with
  | ok i => rw [step_of_decode hc, step_of_decode (h ▸ hc), exec_congr i h]
  | error e =>
    rw [step_of_reject hc, step_of_reject (h ▸ hc)]
    exact congrArg Host.Outcome.next (respond_congr (.error .undefinedOpcode) h)

/-- Settles O18: the request is as it was, and the request alone fixes the response. -/
theorem issuingTwiceGivesTheSameResponse : Obligations.IssuingTwiceGivesTheSameResponse := by
  intro s t h
  have hreq : t.req = s.req := step_req h
  exact ⟨hreq, (step_congr hreq).trans h⟩

/-! ## When a command stops (R51, log entry 4) -/

/-- A command that reads IN faults when IN lacks one of its bytes. -/
theorem exec_of_absent {i : Instr} {s : State} (hi : readsIn i = true) (h : ¬ s.req.inputPresent) :
    exec i s = .fault .inputByteAbsent := by
  rw [Scope.hardwareRunsTheRestrictedDecoders, execAt_of_readsIn hi, withInput_of_absent h]

/-- Settles O20: a command with an incomplete IN to read faults, and every other one completes. -/
theorem commandsStopOnlyOnAnAbsentInputByte : Obligations.CommandsStopOnlyOnAnAbsentInputByte := by
  intro i s
  by_cases h : readsIn i = true ∧ ¬ s.req.inputPresent
  · obtain ⟨hi, hp⟩ := h
    simp [exec_of_absent hi hp, hi, hp, eq_comm]
  · obtain ⟨t, ht⟩ : ∃ t, exec i s = .next t :=
      exec_terminates fun hi => by_contra fun hp => h ⟨hi, hp⟩
    simp [ht, h]

end Sys2Proof.Proofs.MemoryRules
end

section
/-! PROOF. The statements of 30_encoding.md about CMD: the commands and their bytes decode and encode to
each other, and every other byte is illegal. -/

namespace Sys2Proof.Proofs.Encoding

open Sys2Proof.Machine Sys2Proof.Laws Sys2Proof.Proofs.Responses

/-! ## The opcode map (R70, R71) -/

/-- Every row's own law of the opcode map, as one statement about all rows. -/
theorem cmdRoundTrip : ∀ i : Instr, CmdRoundTrip.Statement i
  | .bitGet => CmdRoundTrip.bitGet
  | .bitSet => CmdRoundTrip.bitSet
  | .rlDec => CmdRoundTrip.rlDec
  | .rlEnc => CmdRoundTrip.rlEnc
  | .fhDec => CmdRoundTrip.fhDec
  | .fhEnc => CmdRoundTrip.fhEnc
  | .cfDec => CmdRoundTrip.cfDec
  | .cfEnc => CmdRoundTrip.cfEnc
  | .cvhDec => CmdRoundTrip.cvhDec
  | .cvhEnc => CmdRoundTrip.cvhEnc
  | .cavhEnc => CmdRoundTrip.cavhEnc
  | .frameDec => CmdRoundTrip.frameDec
  | .frameEnc => CmdRoundTrip.frameEnc
  | .reservedCavhDec => CmdRoundTrip.reservedCavhDec

@[simp] theorem decodeCmd_encode (i : Instr) : decodeCmd (encode i) = .ok i := by
  obtain ⟨-, hdec, -⟩ := cmdRoundTrip i
  exact hdec

/-- A CMD byte is its three fields, FAMILY first (R70). -/
theorem cmd_eq_fields (c : Byte) :
    c = cmdFamily c ++ cmdSub c ++ BitVec.ofBool (cmdDir c) := by
  revert c; decide

/-- A byte that decodes has the fields of its row: SUB = 000, and the row's FAMILY and DIR (R70, R71). -/
theorem fields_of_decodeCmd {c : Byte} {i : Instr} (h : decodeCmd c = .ok i) :
    cmdFamily c = familyCode i ∧ cmdSub c = 0 ∧ BitVec.ofBool (cmdDir c) = dirCode i := by
  unfold decodeCmd at h
  split at h
  · cases h
  · rename_i hsub
    split at h <;> cases h <;> rename_i hfam hdir <;>
      exact ⟨BitVec.eq_of_toNat_eq hfam, not_not.1 hsub, congrArg BitVec.ofBool hdir⟩

/-- No other byte decodes to a row than the one it encodes to. -/
theorem encode_of_decodeCmd {c : Byte} {i : Instr} (h : decodeCmd c = .ok i) : encode i = c := by
  obtain ⟨hfam, hsub, hdir⟩ := fields_of_decodeCmd h
  rw [cmd_eq_fields c, hfam, hsub, hdir]
  rfl

/-- Settles O1: the rows' own laws, and the fields of a byte that decodes. -/
theorem decodeAndEncodeAgree : Obligations.DecodeAndEncodeAgree :=
  ⟨decodeCmd_encode, fun _ _ => encode_of_decodeCmd⟩

/-- Settles O2: each byte is the encoding of its row. -/
theorem opcodeMapWords : Obligations.OpcodeMapWords :=
  ⟨decodeCmd_encode .bitGet, decodeCmd_encode .rlEnc, decodeCmd_encode .fhDec, decodeCmd_encode .cfEnc,
    decodeCmd_encode .cvhDec, decodeCmd_encode .cavhEnc, decodeCmd_encode .frameEnc,
    decodeCmd_encode .reservedCavhDec⟩

/-! ## Illegal CMD values (R76, R78, R241) -/

/-- What an illegal CMD leaves: STATUS of UNDEFINED_OPCODE, no port valid, and the request (R231, R241). -/
theorem illegalCommand_eq (s : State) : illegalCommand s = .next (s.failedWith 0x4005) := rfl

theorem exec_reservedCavhDec (s : State) : exec .reservedCavhDec s = illegalCommand s := rfl

/-- Settles O5: 0x60 is the encoding of the reserved row, whose meaning is that of an illegal CMD. -/
theorem reservedConnackDecoderIsIllegal : Obligations.ReservedConnackDecoderIsIllegal :=
  ⟨decodeCmd_encode .reservedCavhDec, fun s => (exec_reservedCavhDec s).trans (illegalCommand_eq s)⟩

/-- The CMD bytes of the 13 commands, as numbers (R71). -/
def legalCmds : List Nat :=
  [0x10, 0x11, 0x20, 0x21, 0x30, 0x31, 0x40, 0x41, 0x50, 0x51, 0x61, 0x70, 0x71]

/-- Every row encodes to one of the 13 legal bytes, but for the reserved one. -/
theorem encode_mem_legalCmds (i : Instr) : (encode i).toNat ∈ legalCmds ∨ i = .reservedCavhDec := by
  cases i <;> decide

/-- A byte outside the 13 is illegal, whether it is the reserved row or no row. -/
theorem step_of_not_legal {s : State} (h : s.req.cmd.toNat ∉ legalCmds) : step s = illegalCommand s := by
  cases hc : decodeCmd s.req.cmd with
  | error e => exact step_of_reject hc
  | ok i =>
    have hmem := encode_mem_legalCmds i
    rw [encode_of_decodeCmd hc] at hmem
    obtain rfl := hmem.resolve_left h
    exact (step_of_decode hc).trans (exec_reservedCavhDec s)

/-- CMD selects no command: it decodes to the reserved row or to none (R76, R78). -/
def isIllegalCmd (c : Byte) : Bool :=
  match decodeCmd c with
  | .ok i => !i.wellFormed
  | .error _ => true

theorem isIllegalCmd_eq (c : Byte) : isIllegalCmd c = decide (c.toNat ∉ legalCmds) := by
  revert c; decide

/-- The 13 legal bytes are all below 256, and the 243 others are illegal (R241). -/
theorem illegalCmd_count :
    ((List.range 256).filter fun c => isIllegalCmd (BitVec.ofNat 8 c)).length = 243 := by
  have hillegal : (List.range 256).filter (fun c => isIllegalCmd (BitVec.ofNat 8 c)) =
      (List.range 256).filter fun c => !decide (c ∈ legalCmds) :=
    List.filter_congr fun c hc => by
      rw [isIllegalCmd_eq, BitVec.toNat_ofNat, Nat.mod_eq_of_lt (List.mem_range.1 hc), decide_not]
  have hlegal : ((List.range 256).filter (· ∈ legalCmds)).Perm legalCmds := by
    have hlt : ∀ c ∈ legalCmds, c < 256 := by decide
    refine (List.perm_ext_iff_of_nodup (List.nodup_range.filter _) (by decide)).2 fun c => ?_
    simpa using hlt c
  have hsplit := List.length_eq_length_filter_add (l := List.range 256) (· ∈ legalCmds)
  rw [hlegal.length_eq, List.length_range, show legalCmds.length = 13 from rfl] at hsplit
  rw [hillegal]
  omega

/-- Settles O4: a byte outside the 13 is the reserved row or none, and 256 bytes less the 13 are 243. -/
theorem illegalCmdRaisesUndefinedOpcode : Obligations.IllegalCmdRaisesUndefinedOpcode :=
  ⟨fun s h => (step_of_not_legal h).trans (illegalCommand_eq s), illegalCmd_count⟩

end Sys2Proof.Proofs.Encoding
end

section
/-! PROOF. The statements of 30_encoding.md about the host's program: a host action changes no block state,
and a read of a port holding no value is a fault. -/

namespace Sys2Proof.Proofs.HostProgram

open Sys2Proof.Machine

/-! ## Host actions (R75) -/

/-- The two states differ in their request ports at most. -/
def DrivesOnly (s s' : State) : Prop := ∃ q, s' = { s with req := q }

theorem DrivesOnly.refl (s : State) : DrivesOnly s s := ⟨s.req, rfl⟩

theorem DrivesOnly.status_res {s s' : State} (h : DrivesOnly s s') :
    s'.status = s.status ∧ s'.res = s.res := by
  obtain ⟨q, rfl⟩ := h
  exact ⟨rfl, rfl⟩

theorem gotoLabel_drivesOnly {prog : List Stmt} {l : Nat} {s : State} {h' : HostState}
    (e : gotoLabel prog l s = .next h') : DrivesOnly s h'.inst := by
  unfold gotoLabel at e
  split at e <;> cases e
  exact .refl s

theorem replaceIn_drivesOnly {bound : Option Nat} {bs : List Byte} {h h' : HostState}
    (e : replaceIn bound bs h = .next h') : DrivesOnly h.inst h'.inst := by
  unfold replaceIn at e
  split at e <;> cases e
  exact ⟨_, rfl⟩

/-- A host action at most drives the request: it never reaches `step`. -/
theorem runStmt_drivesOnly {bound : Option Nat} {prog : List Stmt} {st : Stmt} {h h' : HostState}
    (hst : st.isCommand = false) (e : runStmt bound prog st h = .next h') :
    DrivesOnly h.inst h'.inst := by
  cases st with
  | command c ports => cases hst
  | setIn bytes => exact replaceIn_drivesOnly e
  | inFromOut =>
    simp only [runStmt] at e
    split at e
    · exact replaceIn_drivesOnly e
    · cases e
    · cases e
  | inFromRemainder =>
    simp only [runStmt] at e
    split at e
    · cases e
    · cases e
    · exact replaceIn_drivesOnly e
  | copy a r =>
    simp only [runStmt] at e
    split at e
    · cases e
    · cases e
    · split at e <;> cases e
      exact ⟨_, rfl⟩
  | branch c l =>
    simp only [runStmt] at e
    split at e
    · cases e
    · exact gotoLabel_drivesOnly e
    · cases e
      exact .refl _
  | jump l => exact gotoLabel_drivesOnly e
  | label l =>
    cases e
    exact .refl _

/-- Settles O45: a host action drives the request at most. -/
theorem hostActionsChangeNoBlockState : Obligations.HostActionsChangeNoBlockState :=
  fun _ _ _ _ _ hst e => (runStmt_drivesOnly hst e).status_res

/-! ## Reads of a port holding no value (R27, R74) -/

theorem evalCondition_of_port_fault {p : RPort} {s : State} {f : Fault} (e : readResult p s = .error f)
    (equal : Bool) (const : PortValue) : evalCondition ⟨.port p, equal, const⟩ s = .error f := by
  simp only [evalCondition, subjectValue, e]

theorem runStmt_branch_of_fault {c : Condition} {h : HostState} {f : Fault}
    (e : evalCondition c h.inst = .error f) (bound : Option Nat) (prog : List Stmt) (l : Nat) :
    runStmt bound prog (.branch c l) h = .fault f := by
  simp only [runStmt, e]

theorem runStmt_copy_of_fault {p : RPort} {h : HostState} {f : Fault}
    (e : readResult p h.inst = .error f) (bound : Option Nat) (prog : List Stmt) (a : APort) :
    runStmt bound prog (.copy a p) h = .fault f := by
  simp only [runStmt, e]

/-- Settles O46: a condition reads its port through `readResult`, as a copy does, and both pass its fault
on. -/
theorem hostReadOfAnInvalidPortFaults : Obligations.HostReadOfAnInvalidPortFaults :=
  fun bound prog _ _ e =>
    ⟨fun _ _ l => runStmt_branch_of_fault (evalCondition_of_port_fault e _ _) bound prog l,
      runStmt_copy_of_fault e bound prog⟩

end Sys2Proof.Proofs.HostProgram
end

section
/-! PROOF. The statements of 41_bitops.md: BIT.GET reads a bit of a byte, BIT.SET replaces one, and the
Fixed Header and Connect Flags codecs take their bytes apart and put them together with these two. -/

namespace Sys2Proof.Proofs.BitOps

open Sys2Proof.Machine

/-! ## BIT.GET (R110) -/

/-- Settles O24: BIT.GET responds with the bit read, and a bit of a byte is that binary digit of its
number. -/
theorem bitGetReadsTheIndexedBit : Obligations.BitGetReadsTheIndexedBit := fun s => by
  rw [← bitAt_eq]
  exact exec_of_not_readsIn rfl s []

/-! ## BIT.SET (R111) -/

theorem getLsbD_bitByte (b : Bool) (j : Nat) : (bitByte b).getLsbD j = (decide (j = 0) && b) := by
  cases b with
  | false => simp [bitByte]
  | true => simp [bitByte, BitVec.getLsbD_one]

theorem getLsbD_bitByte_shiftLeft (b : Bool) (i : Nat) {j : Nat} (hj : j < 8) :
    (bitByte b <<< i).getLsbD j = (decide (j = i) && b) := by
  rw [BitVec.getLsbD_shiftLeft, getLsbD_bitByte]
  rcases Nat.lt_trichotomy j i with h | rfl | h
  · simp [h, h.ne]
  · simp [hj]
  · simp [h.ne', show j - i ≠ 0 by omega]

/-- BIT.SET bit by bit: the mask clears bit `i`, and the value comes back at `i` alone. -/
theorem getLsbD_bitSet (v : Byte) (i : BitVec 3) (b : Bool) {j : Nat} (hj : j < 8) :
    (bitSet v i b).getLsbD j = if j = i.toNat then b else v.getLsbD j := by
  have hone : (1#8 <<< i.toNat).getLsbD j = decide (j = i.toNat) :=
    (getLsbD_bitByte_shiftLeft true i.toNat hj).trans (Bool.and_true _)
  rw [bitSet, BitVec.getLsbD_or, BitVec.getLsbD_and, BitVec.getLsbD_not, hone,
    getLsbD_bitByte_shiftLeft b i.toNat hj]
  by_cases h : j = i.toNat <;> simp [h, hj]

/-- Settles O25: BIT.SET responds with the byte `bitSet` gives, whose bits are those of
`getLsbD_bitSet`. -/
theorem bitSetReplacesTheIndexedBit : Obligations.BitSetReplacesTheIndexedBit := fun s =>
  ⟨_, exec_of_not_readsIn rfl s [], fun _ hj => getLsbD_bitSet _ _ _ hj⟩

/-! ## The bits of a field (R7, R92) -/

/-- A field is its upper bits before its lowest bit. -/
theorem field_succ (v : Byte) (lo w : Nat) :
    field v lo (w + 1) = field v (lo + 1) w ++ BitVec.ofBool (bitAt v lo) := by
  ext j hj
  cases j with
  | zero => simp [field, bitAt, BitVec.getElem_append]
  | succ j => simp [field, BitVec.getElem_append, Nat.add_comm, Nat.add_left_comm]

theorem field_one (v : Byte) (lo : Nat) : field v lo 1 = BitVec.ofBool (bitAt v lo) := by
  ext j hj
  obtain rfl : j = 0 := by omega
  simp [field, bitAt]

/-- A QoS code is two bits of its byte. -/
theorem field_two (v : Byte) (lo : Nat) :
    field v lo 2 = BitVec.ofBool (bitAt v (lo + 1)) ++ BitVec.ofBool (bitAt v lo) := by
  rw [field_succ, field_one]

/-- A packet type is four bits of its byte. -/
theorem field_four (v : Byte) (lo : Nat) :
    field v lo 4 = BitVec.ofBool (bitAt v (lo + 3)) ++ BitVec.ofBool (bitAt v (lo + 2)) ++
      BitVec.ofBool (bitAt v (lo + 1)) ++ BitVec.ofBool (bitAt v lo) := by
  rw [field_succ, field_succ, field_two]

/-! ## The encoded bytes, bit by bit (R80, R88) -/

theorem getLsbD_zext8_shiftLeft {w : Nat} (v : BitVec w) (i : Nat) {j : Nat} (hj : j < 8) :
    (zext8 v <<< i).getLsbD j = (!decide (j < i) && v.getLsbD (j - i)) := by
  simp [zext8, hj]

/-- Byte 0 of a Fixed Header is written by eight BIT.SETs on 0x00. -/
theorem fhByte0_eq_bitSets (pt : BitVec 4) (dup : Bool) (qos : BitVec 2) (retain : Bool) :
    fhByte0 pt dup qos retain =
      bitSet (bitSet (bitSet (bitSet (bitSet (bitSet (bitSet (bitSet 0 7 (pt.getLsbD 3)) 6
        (pt.getLsbD 2)) 5 (pt.getLsbD 1)) 4 (pt.getLsbD 0)) 3 dup) 2 (qos.getLsbD 1)) 1
        (qos.getLsbD 0)) 0 retain := by
  refine BitVec.eq_of_getLsbD_eq fun j hj => ?_
  simp only [getLsbD_bitSet _ _ _ hj, fhByte0, BitVec.getLsbD_or,
    getLsbD_zext8_shiftLeft _ _ hj, getLsbD_bitByte_shiftLeft _ _ hj, getLsbD_bitByte]
  interval_cases j <;> simp

/-- A Connect Flags byte is written by seven BIT.SETs on 0x00, none of them on the reserved bit 0. -/
theorem cfByte_eq_bitSets (c : ConnectFlags) :
    cfByte c =
      bitSet (bitSet (bitSet (bitSet (bitSet (bitSet (bitSet 0 7 c.userNameFlag) 6 c.passwordFlag) 5
        c.willRetain) 4 (c.willQos.getLsbD 1)) 3 (c.willQos.getLsbD 0)) 2 c.willFlag) 1
        c.cleanSession := by
  refine BitVec.eq_of_getLsbD_eq fun j hj => ?_
  simp only [getLsbD_bitSet _ _ _ hj, cfByte, BitVec.getLsbD_or,
    getLsbD_zext8_shiftLeft _ _ hj, getLsbD_bitByte_shiftLeft _ _ hj]
  interval_cases j <;> simp

/-- Everything FHEncode emits begins with byte 0 of the header (R141). -/
theorem fhEncode_head {pt : BitVec 4} {dup retain : Bool} {qos : BitVec 2} {v : Nat} {bs : List Byte}
    (h : fhEncode pt dup qos retain v = .ok bs) : bs[0]? = some (fhByte0 pt dup qos retain) := by
  unfold fhEncode at h
  split at h
  · cases h
  · split at h <;> cases h
    rfl

/-! ## The codecs (R112) -/

/-- Settles O26: an accepted byte decodes to its bits and fields, a field is the BIT.GETs of its bits, and
an encoder's byte is its BIT.SETs. -/
theorem codecsAreBitOpsCompositions : Obligations.CodecsAreBitOpsCompositions := by
  refine ⟨fun bs h n e => ?_, fun restricted f c e => ?_, fun pt dup retain qos v bs e => ?_,
    fun c f e => ?_⟩
  · obtain ⟨b0, _, _, rfl, -, -, rfl, -⟩ := (fhDecode_ok_iff bs h n).1 e
    exact ⟨b0, rfl, rfl, rfl, field_two b0 1, field_four b0 4⟩
  · obtain ⟨rfl, -⟩ := cfDecode_ok e
    exact ⟨rfl, rfl, field_two f 3, rfl, rfl, rfl⟩
  · rw [fhEncode_head e, fhByte0_eq_bitSets]
  · rw [((cfEncode_ok_iff c f).1 e).2, cfByte_eq_bitSets]

end Sys2Proof.Proofs.BitOps
end

section
/-! PROOF. The statements of 42_remaining_length.md: RL.DEC and RL.ENC are RLDecode and RLEncode with their
answers put on the ports, and a minimal field is the shortest with its value. -/

namespace Sys2Proof.Proofs.RemainingLength

open Sys2Proof.Machine

/-! ## The two commands over their functions (R120, R121) -/

theorem exec_rlDec_of_ok {s : State} {bs : List Byte} {v n : Nat} (hb : s.req.holds bs)
    (e : rlDecode bs = .ok (v, n)) :
    exec .rlDec s = .next (s.okWith
      { Results.empty with
        rValue := some (BitVec.ofNat 28 v)
        rConsumed := some (BitVec.ofNat 3 n)
        rRemOff := some n }) := by
  rw [exec_of_holds hb, responseOf, rlDecResults, e]
  rfl

theorem exec_rlDec_of_error {s : State} {bs : List Byte} {r : Reason} (hb : s.req.holds bs)
    (e : rlDecode bs = .error r) : exec .rlDec s = .next (s.failedWith (statusOf r)) := by
  rw [exec_of_holds hb, responseOf, rlDecResults, e]
  rfl

theorem exec_rlEnc_of_ok {s : State} {f : List Byte} (e : rlEncode s.req.aValue.toNat = .ok f) :
    exec .rlEnc s = .next (s.okWith (Results.ofOut f)) := by
  rw [exec_of_not_readsIn rfl s [], responseOf, rlEncResults, e, ← emitAll_eq]
  rfl

theorem exec_rlEnc_of_error {s : State} {r : Reason} (e : rlEncode s.req.aValue.toNat = .error r) :
    exec .rlEnc s = .next (s.failedWith (statusOf r)) := by
  rw [exec_of_not_readsIn rfl s [], responseOf, rlEncResults, e]
  rfl

/-- Settles O27: the three kinds of input are those of `rlDecode_field`, `rlDecode_tooLong` and
`rlDecode_short`. -/
theorem rlDecDecodesTheLeadingField : Obligations.RlDecDecodesTheLeadingField :=
  ⟨fun _ _ rest hf hb => ⟨digitsValue_field_lt hf, exec_rlDec_of_ok hb (rlDecode_field hf rest)⟩,
    fun _ _ rest hf hl hb => exec_rlDec_of_error hb (rlDecode_tooLong hf hl rest),
    fun _ _ hf hl hb => exec_rlDec_of_error hb (rlDecode_short hf hl)⟩

/-- Settles O28: the field RLEncode gives is the minimal one (`rlEncode_spec`), and above the range it
gives none. -/
theorem rlEncEmitsTheMinimalField : Obligations.RlEncEmitsTheMinimalField := by
  refine ⟨fun s h => ?_, fun s h => exec_rlEnc_of_error (rlEncode_tooBig h)⟩
  obtain ⟨f, e, hf⟩ := rlEncode_spec h
  exact ⟨f, hf, exec_rlEnc_of_ok e⟩

/-! ## Round trip (R122) -/

/-- The host reads from OUT the sequence a command emitted (R52). -/
theorem readResult_out_of_ofOut {s : State} {bs : List Byte} (h : s.res = Results.ofOut bs) :
    readResult .out s = .ok (.bytes bs) := by
  simp [readResult, RPort.value?, h, Results.ofOut]

/-- RLDecode of what RLEncode gives is the value, and all of it is consumed. -/
theorem rlDecode_of_isRlEncoding {v : Nat} {f : List Byte} (h : isRlEncoding v f) :
    rlDecode f = .ok (v, f.length) := by
  obtain ⟨hf, -, rfl, -⟩ := h
  simpa using rlDecode_field hf []

/-- Settles O29: RL.DEC reads the field RL.ENC emitted, and its value and length fit R_VALUE and
R_CONSUMED. -/
theorem remainingLengthRoundTrip : Obligations.RemainingLengthRoundTrip := by
  intro s h
  obtain ⟨f, e, hf⟩ := rlEncode_spec h
  refine ⟨_, f, _, exec_rlEnc_of_ok e, readResult_out_of_ofOut rfl,
    exec_rlDec_of_ok (holds_withInput _ f) (rlDecode_of_isRlEncoding hf), ?_, ?_⟩
  · have hv : (BitVec.ofNat 28 s.req.aValue.toNat).toNat = s.req.aValue.toNat :=
      Nat.mod_eq_of_lt (by omega)
    exact congrArg (fun n => Except.ok (PortValue.num n)) hv
  · have hn : (BitVec.ofNat 3 f.length).toNat = f.length :=
      StateRules.toNat_ofNat_consumed (isRlField_length hf.1).2
    exact congrArg (fun n => Except.ok (PortValue.num n)) hn

/-! ## Minimal fields are the shortest (R86, R124) -/

/-- Minimality of a field, read off the bytes it leads. -/
theorem isMinimal_iff_getElem? {f : List Byte} (hf : isRlField f) (rest : List Byte) :
    isMinimal f ↔ f.length = 1 ∨ (f ++ rest)[f.length - 1]? ≠ some 0 := by
  have hl := (isRlField_length hf).1
  rw [isMinimal, List.getLast?_eq_getElem?, List.getElem?_append_left (by omega)]

/-- A value that `k` digits carry has a minimal encoding of at most `k` bytes. -/
theorem rlLength_le_of_lt {v k : Nat} (hk : 1 ≤ k) (h : v < 128 ^ k) : rlLength v ≤ k := by
  unfold rlLength
  rcases Nat.lt_or_ge k 4 with hk' | hk'
  · interval_cases k <;> norm_num at h <;> split_ifs <;> omega
  · split_ifs <;> omega

/-- A field that is not minimal ends in a zero digit, so fewer bytes carry its value. -/
theorem rlLength_lt_of_not_minimal {f : List Byte} (hf : isRlField f) (hm : ¬ isMinimal f) :
    rlLength (digitsValue f) < f.length := by
  obtain ⟨more, last, rfl, -, -, -⟩ := hf
  simp only [isMinimal, List.length_append, List.length_singleton, List.getLast?_concat,
    Option.some.injEq, not_or, not_not] at hm ⊢
  obtain ⟨hl, rfl⟩ := hm
  have hv : digitsValue (more ++ [0]) = digitsValue more := by
    rw [digitsValue_append]; simp [digitsValue]
  rw [hv]
  have := rlLength_le_of_lt (by omega) (digitsValue_lt more)
  omega

/-- The minimal encoding of a field's value is the field exactly when the field is minimal. -/
theorem isRlEncoding_eq_iff {f g : List Byte} (hf : isRlField f) (hg : isRlEncoding (digitsValue f) g) :
    g = f ↔ isMinimal f := by
  obtain ⟨hgf, hgm, hgv, hgl⟩ := hg
  exact ⟨fun h => h ▸ hgm, fun hm => rlField_ext hgf hf (hgl.trans (length_of_minimal hf hm).symm) hgv⟩

/-- Settles O30: the decoded bytes are a field, and RLEncode gives the minimal field of its value. -/
theorem reencodingIsTheIdentityExactlyOnMinimalFields :
    Obligations.ReencodingIsTheIdentityExactlyOnMinimalFields := by
  intro bs v n h
  obtain ⟨f, rest, rfl, hf, rfl, rfl⟩ := (rlDecode_ok_iff bs v n).1 h
  have hv := digitsValue_field_lt hf
  obtain ⟨g, e, hg⟩ := rlEncode_spec (v := digitsValue f) (by omega)
  rw [List.take_left, ← isMinimal_iff_getElem? hf rest]
  refine ⟨g, e, isRlEncoding_eq_iff hf hg, fun hm => ?_⟩
  obtain ⟨-, -, -, hgl⟩ := hg
  exact hgl ▸ rlLength_lt_of_not_minimal hf hm

end Sys2Proof.Proofs.RemainingLength
end

section
/-! PROOF. The statements of 43_fixed_header.md: FH.DEC and FH.ENC are FHDecode and FHEncode with their
answers put on the ports, and the two undo each other. -/

namespace Sys2Proof.Proofs.FixedHeader

open Sys2Proof.Machine

/-! ## The two commands over their functions (R140, R141) -/

theorem exec_fhDec_of_ok {s : State} {bs : List Byte} {h : FixedHeader} {off : Nat}
    (hb : s.req.holds bs) (e : fhDecode bs = .ok (h, off)) :
    exec .fhDec s =
      .next (s.okWith { withHeader h Results.empty with rRemOff := some off }) := by
  rw [exec_of_holds hb, responseOf, fhDecResults, e]
  rfl

theorem exec_fhDec_of_error {s : State} {bs : List Byte} {r : Reason} (hb : s.req.holds bs)
    (e : fhDecode bs = .error r) : exec .fhDec s = .next (s.failedWith (statusOf r)) := by
  rw [exec_of_holds hb, responseOf, fhDecResults, e]
  rfl

theorem exec_fhEnc_of_ok {s : State} {bs : List Byte}
    (e : fhEncode s.req.aPtype s.req.aDup s.req.aQos s.req.aRetain s.req.aValue.toNat = .ok bs) :
    exec .fhEnc s = .next (s.okWith (Results.ofOut bs)) := by
  rw [exec_of_not_readsIn rfl s [], responseOf, fhEncResults, e, ← emitAll_eq]
  rfl

theorem exec_fhEnc_of_error {s : State} {r : Reason}
    (e : fhEncode s.req.aPtype s.req.aDup s.req.aQos s.req.aRetain s.req.aValue.toNat = .error r) :
    exec .fhEnc s = .next (s.failedWith (statusOf r)) := by
  rw [exec_of_not_readsIn rfl s [], responseOf, fhEncResults, e]
  rfl

/-! ## FH.DEC (R140) -/

/-- The header of byte 0 and a field, read off byte 0 as a number (R80). -/
theorem headerOf_eq (b0 : Byte) (f : List Byte) :
    headerOf b0 f =
      { packetType := BitVec.ofNat 4 (b0.toNat / 16)
        dup := b0.toNat / 8 % 2 == 1
        qos := BitVec.ofNat 2 (b0.toNat / 2 % 4)
        retain := b0.toNat % 2 == 1
        remainingLength := digitsValue f } := by
  have hq : field b0 1 2 = BitVec.ofNat 2 (b0.toNat / 2 % 4) :=
    (field_eq b0 1 2).trans (BitVec.eq_of_toNat_eq (by simp))
  simp [headerOf, hq, field_eq, bitAt_eq]

/-- A field that RLDecode rejects, and that is there, is rejected by FHDecode for the same reason. -/
theorem fhDecode_of_rlDecode_error {b0 : Byte} {bs : List Byte} {e : Reason}
    (hq : b0.toNat / 2 % 4 ≠ 3) (hl : 1 ≤ bs.length) (he : rlDecode bs = .error e) :
    fhDecode (b0 :: bs) = .error e := by
  cases bs with
  | nil => simp at hl
  | cons b1 bs => exact fhDecode_fieldError hq he

/-- Settles O31: the five kinds of input are those of `fhDecode_field`, `fhDecode_short`,
`fhDecode_reservedQos` and the two errors of RLDecode. -/
theorem fhDecDecodesTheFixedHeader : Obligations.FhDecDecodesTheFixedHeader := by
  refine ⟨fun s b0 f rest hq hf hb => ?_, fun s bs hl hb => exec_fhDec_of_error hb (fhDecode_short hl),
    fun s b0 b1 rest hq hb => exec_fhDec_of_error hb (fhDecode_reservedQos hq b1 rest),
    fun s b0 f rest hq hf hl hb => ?_, fun s b0 f hq hf h1 hl hb => ?_⟩
  · rw [exec_fhDec_of_ok hb (fhDecode_field hq hf rest), headerOf_eq]
    rfl
  · have h1 : 1 ≤ (f ++ rest).length := by rw [List.length_append]; omega
    exact exec_fhDec_of_error hb (fhDecode_of_rlDecode_error hq h1 (rlDecode_tooLong hf hl rest))
  · exact exec_fhDec_of_error hb (fhDecode_of_rlDecode_error hq h1 (rlDecode_short hf hl))

/-! ## FH.ENC (R141) -/

/-- Settles O32: byte 0 is the number of `fhByte0_eq`, the field is the minimal one, and the QoS test
comes first. -/
theorem fhEncEmitsTheFixedHeader : Obligations.FhEncEmitsTheFixedHeader := by
  refine ⟨fun s hq hv => ?_, fun s hq => ?_,
    fun s hq hv => exec_fhEnc_of_error (fhEncode_tooBig hq hv _ _ _)⟩
  · obtain ⟨f, e, hf⟩ := fhEncode_spec hq hv s.req.aPtype s.req.aDup s.req.aRetain
    rw [← fhByte0_eq]
    exact ⟨f, hf, exec_fhEnc_of_ok e⟩
  · exact exec_fhEnc_of_error (hq ▸ fhEncode_qosThree _ _ _ _)

/-! ## Round trip (R142) -/

/-- FHDecode of what FHEncode gives is the header, and all of it is consumed. -/
theorem fhDecode_fhByte0_cons {qos : BitVec 2} {v : Nat} {f : List Byte} (hq : qos ≠ 3)
    (hf : isRlEncoding v f) (pt : BitVec 4) (dup retain : Bool) :
    fhDecode (fhByte0 pt dup qos retain :: f) =
      .ok (⟨pt, dup, qos, retain, v⟩, (fhByte0 pt dup qos retain :: f).length) := by
  obtain ⟨hfield, -, rfl, -⟩ := hf
  rw [← headerOf_fhByte0 pt dup qos retain f, List.length_cons, Nat.add_comm]
  simpa using fhDecode_field (qosCode_fhByte0 hq pt dup retain) hfield []

/-- Settles O33: FH.DEC reads the header FH.ENC emitted. -/
theorem fixedHeaderRoundTrip : Obligations.FixedHeaderRoundTrip := by
  intro s hq hv
  obtain ⟨f, e, hf⟩ := fhEncode_spec hq hv s.req.aPtype s.req.aDup s.req.aRetain
  exact ⟨_, _, exec_fhEnc_of_ok e, RemainingLength.readResult_out_of_ofOut rfl,
    exec_fhDec_of_ok (holds_withInput _ _) (fhDecode_fhByte0_cons hq hf _ _ _)⟩

end Sys2Proof.Proofs.FixedHeader
end

section
/-! PROOF. The statements of 44_connect_flags.md: CF.DEC's checks in their order, the bytes it accepts, and
CF.ENC as its inverse. -/

namespace Sys2Proof.Proofs.ConnectFlags

open Sys2Proof.Machine

/-! ## The two commands over their functions (R160, R161) -/

theorem execAt_cfDec (restricted : Bool) (s : State) :
    execAt restricted .cfDec s = .next (respond (cfDecResults restricted s.req) s) :=
  execAt_of_not_readsIn rfl restricted s []

theorem exec_cfDec (s : State) : exec .cfDec s = .next (respond (cfDecResults true s.req) s) :=
  exec_of_not_readsIn rfl s []

theorem exec_cfDec_of_ok {s : State} {c : ConnectFlags} (e : cfDecode true s.req.aByte = .ok c) :
    exec .cfDec s = .next (s.okWith (withFlags c Results.empty)) := by
  rw [exec_cfDec, cfDecResults, e]
  rfl

theorem exec_cfDec_of_error {s : State} {r : Reason} (e : cfDecode true s.req.aByte = .error r) :
    exec .cfDec s = .next (s.failedWith (statusOf r)) := by
  rw [exec_cfDec, cfDecResults, e]
  rfl

theorem exec_cfEnc_of_ok {s : State} {b : Byte} (e : cfEncode (flagsOperand s.req) = .ok b) :
    exec .cfEnc s = .next (s.okWith { Results.empty with rByte := some b }) := by
  rw [exec_of_not_readsIn rfl s [], responseOf, cfEncResults, e]
  rfl

theorem exec_cfEnc_of_error {s : State} {r : Reason} (e : cfEncode (flagsOperand s.req) = .error r) :
    exec .cfEnc s = .next (s.failedWith (statusOf r)) := by
  rw [exec_of_not_readsIn rfl s [], responseOf, cfEncResults, e]
  rfl

/-! ## The flags byte as a number (R88) -/

theorem bitAt_zero_iff (f : Byte) : bitAt f 0 = true ↔ f.toNat % 2 = 1 := by
  simp [bitAt_eq]

/-- The top bit is the whole quotient: a byte is below 256. -/
theorem bitAt_seven (f : Byte) : bitAt f 7 = (f.toNat / 128 == 1) := by
  have hlt : f.toNat / 128 < 2 := by have := f.isLt; omega
  rw [bitAt_eq, show 2 ^ 7 = 128 from rfl, Nat.mod_eq_of_lt hlt]

theorem wqosField_eq (f : Byte) : field f 3 2 = BitVec.ofNat 2 (f.toNat / 8 % 4) :=
  (field_eq f 3 2).trans (BitVec.eq_of_toNat_eq (by simp))

theorem isReservedQos_wqosField_iff (f : Byte) :
    isReservedQos (field f 3 2) = true ↔ f.toNat / 8 % 4 = 3 :=
  (isReservedQos_iff _).trans (wqosField_eq_three_iff f)

theorem cfFields_eq (f : Byte) :
    cfFields f =
      { cleanSession := f.toNat / 2 % 2 == 1
        willFlag := f.toNat / 4 % 2 == 1
        willQos := BitVec.ofNat 2 (f.toNat / 8 % 4)
        willRetain := f.toNat / 32 % 2 == 1
        passwordFlag := f.toNat / 64 % 2 == 1
        userNameFlag := f.toNat / 128 == 1 } := by
  rw [cfFields, bitAt_seven, wqosField_eq]
  simp [bitAt_eq]

/-! ## CFDecode, check by check (R160) -/

/-- The subset checks, in their order, on the byte as a number. -/
theorem cfFirstViolation_cfFields (f : Byte) :
    cfFirstViolation (cfFields f) =
      if f.toNat / 2 % 2 = 0 then some .cleanSessionUnset
      else if f.toNat / 4 % 2 = 1 then some .willFlagSet
      else if f.toNat / 8 % 4 ≠ 0 then some .willQosNonzero
      else if f.toNat / 32 % 2 = 1 then some .willRetainSet
      else if f.toNat / 64 % 2 = 1 then some .passwordFlagSet
      else if f.toNat / 128 = 1 then some .usernameFlagSet
      else none := by
  rw [cfFields_eq]
  simp [cfFirstViolation, ← BitVec.toNat_inj]

/-- The restricted subset admits one record: cleanSession alone (R162). -/
theorem cfFirstViolation_eq_none_iff (c : ConnectFlags) :
    cfFirstViolation c = none ↔ c = ⟨true, false, 0, false, false, false⟩ := by
  obtain ⟨clean, will, wqos, wretain, password, username⟩ := c
  revert clean will wqos wretain password username
  decide

theorem cfDecode_unrestricted (f : Byte) :
    cfDecode false f =
      if f.toNat % 2 = 1 then .error .reservedFlagBit
      else if f.toNat / 8 % 4 = 3 then .error .reservedQos
      else .ok (cfFields f) := by
  simp [cfDecode, bitAt_zero_iff, isReservedQos_wqosField_iff]

/-- Restricted CFDecode has the subset checks after those of the unrestricted one. -/
theorem cfDecode_restricted (f : Byte) :
    cfDecode true f =
      if f.toNat % 2 = 1 then .error .reservedFlagBit
      else if f.toNat / 8 % 4 = 3 then .error .reservedQos
      else (cfFirstViolation (cfFields f)).elim (.ok ⟨true, false, 0, false, false, false⟩) .error := by
  simp only [cfDecode, bitAt_zero_iff, isReservedQos_wqosField_iff, if_true]
  cases hv : cfFirstViolation (cfFields f) with
  | some e => rfl
  | none => rw [(cfFirstViolation_eq_none_iff _).1 hv]; rfl

/-- Settles O34: on the byte as a number, CFDecode is its checks in the order of R160; each branch is one
response. -/
theorem cfDecChecksThenExtracts : Obligations.CfDecChecksThenExtracts := by
  refine ⟨fun s => ?_, fun s => ?_⟩
  · rw [exec_cfDec, cfDecResults, cfDecode_restricted, cfFirstViolation_cfFields]
    dsimp only
    split_ifs <;> rfl
  · rw [execAt_cfDec, cfDecResults, cfDecode_unrestricted, cfFields_eq]
    dsimp only
    split_ifs <;> rfl

/-! ## CFDecode and CFEncode are inverse (R162 to R164) -/

/-- The bytes of a record are those with bit 0 = 0 whose fields it is. -/
theorem eq_cfByte_iff (f : Byte) (c : ConnectFlags) :
    f = cfByte c ↔ bitAt f 0 = false ∧ cfFields f = c := by
  constructor
  · rintro rfl
    exact (cfFields_cfByte c).symm
  · rintro ⟨h, rfl⟩
    exact (cfByte_cfFields h).symm

/-- Unrestricted CFDecode is the inverse of CFEncode. -/
theorem cfDecode_unrestricted_ok_iff (f : Byte) (c : ConnectFlags) :
    cfDecode false f = .ok c ↔ cfEncode c = .ok f := by
  rw [cfEncode_ok_iff, eq_cfByte_iff, cfDecode_unrestricted]
  split_ifs with h0 hq
  · simp [(bitAt_zero_iff f).2 h0]
  · have hq : (cfFields f).willQos = 3 := (wqosField_eq_three_iff f).2 hq
    exact iff_of_false nofun fun ⟨hc, _, e⟩ => hc (e ▸ hq)
  · have h0 : bitAt f 0 = false := Bool.eq_false_iff.2 ((bitAt_zero_iff f).not.2 h0)
    have hq : (cfFields f).willQos ≠ 3 := (wqosField_eq_three_iff f).not.2 hq
    constructor
    · rintro ⟨rfl⟩
      exact ⟨hq, h0, rfl⟩
    · rintro ⟨-, -, rfl⟩
      rfl

/-- Restricted CFDecode is its restriction to cleanSession alone. -/
theorem cfDecode_restricted_ok_iff (f : Byte) (c : ConnectFlags) :
    cfDecode true f = .ok c ↔
      cfDecode false f = .ok c ∧ c = ⟨true, false, 0, false, false, false⟩ := by
  rw [cfDecode_restricted, cfDecode_unrestricted]
  split_ifs with h0 hq
  · simp
  · simp
  · have hsubset := cfFirstViolation_eq_none_iff (cfFields f)
    cases hv : cfFirstViolation (cfFields f) with
    | some e =>
      have hne := hsubset.not.1 (by simp [hv])
      exact iff_of_false nofun fun ⟨hf, hc⟩ => hne ((Except.ok.inj hf).trans hc)
    | none =>
      rw [hsubset.1 hv, Option.elim_none, Except.ok.injEq]
      exact ⟨fun h => ⟨h, h.symm⟩, And.left⟩

/-- CFDecode accepts the bytes CFEncode produces and gives back their record; when restricted, that record
is cleanSession alone. -/
theorem cfDecode_ok_iff (restricted : Bool) (f : Byte) (c : ConnectFlags) :
    cfDecode restricted f = .ok c ↔
      cfEncode c = .ok f ∧ (restricted = true → c = ⟨true, false, 0, false, false, false⟩) := by
  cases restricted with
  | false => simp [cfDecode_unrestricted_ok_iff]
  | true => simp [cfDecode_restricted_ok_iff, cfDecode_unrestricted_ok_iff]

/-- The byte of cleanSession alone is 0x02. -/
theorem cfEncode_cleanSession : cfEncode ⟨true, false, 0, false, false, false⟩ = .ok 0x02 := rfl

theorem cfDecode_restricted_accepts_iff (f : Byte) : (∃ c, cfDecode true f = .ok c) ↔ f = 0x02 := by
  simp only [cfDecode_ok_iff, true_imp_iff, exists_eq_right, cfEncode_cleanSession, Except.ok.injEq]
  exact eq_comm

theorem cfDecode_unrestricted_accepts_iff (f : Byte) :
    (∃ c, cfDecode false f = .ok c) ↔ f.toNat % 2 = 0 ∧ f.toNat / 8 % 4 ≠ 3 := by
  rw [cfDecode_unrestricted]
  split_ifs with h0 hq
  · simp [h0]
  · simp [hq]
  · exact iff_of_true ⟨_, rfl⟩ ⟨by omega, hq⟩

/-- CF.DEC on this hardware answers with cleanSession alone to the byte 0x02 and to no other. -/
theorem exec_cfDec_cleanSession_iff (s : State) :
    exec .cfDec s =
        .next (s.okWith (withFlags ⟨true, false, 0, false, false, false⟩ Results.empty)) ↔
      s.req.aByte = 0x02 := by
  constructor
  · intro h
    cases hd : cfDecode true s.req.aByte with
    | ok c => exact (cfDecode_restricted_accepts_iff _).1 ⟨c, hd⟩
    | error r =>
      rw [exec_cfDec_of_error hd] at h
      have hres := congrArg State.res (Host.Outcome.next.inj h)
      exact absurd (congrArg Results.rClean hres) nofun
  · intro h
    exact exec_cfDec_of_ok (h ▸ (cfDecode_ok_iff true _ _).2 ⟨cfEncode_cleanSession, fun _ => rfl⟩)

/-- Settles O35: the restricted decoder accepts the one byte of the one record it admits, and the
unrestricted one the bytes of all records. -/
theorem acceptedConnectFlagsBytes : Obligations.AcceptedConnectFlagsBytes := by
  refine ⟨exec_cfDec_cleanSession_iff, cfDecode_restricted_accepts_iff,
    cfDecode_unrestricted_accepts_iff, fun f => ?_, by decide⟩
  simp only [cfDecode_unrestricted_ok_iff]

/-! ## CF.ENC (R161) -/

/-- Settles O36: CF.ENC responds with the byte of its operand record, which as a number is the sum of its
flags' weights. -/
theorem cfEncPlacesTheFlags : Obligations.CfEncPlacesTheFlags := by
  refine ⟨fun s hq => ?_, fun s hq => ?_⟩
  · have e : cfEncode (flagsOperand s.req) = .ok (cfByte (flagsOperand s.req)) :=
      (cfEncode_ok_iff _ _).2 ⟨hq, rfl⟩
    rw [exec_cfEnc_of_ok e, cfByte_eq]
    rfl
  · have e : cfEncode (flagsOperand s.req) = .error .invalidQosOperand :=
      if_pos ((isReservedQos_iff _).2 hq)
    exact exec_cfEnc_of_error e

/-! ## Round trip (R164) -/

/-- Settles O37: the four laws are `cfDecode_ok_iff` read in its two directions and `cfEncode_ok_iff`. -/
theorem connectFlagsRoundTrip : Obligations.ConnectFlagsRoundTrip := by
  refine ⟨fun c f e => (cfDecode_unrestricted_ok_iff f c).2 e, fun c f e => ?_,
    fun c hq => ⟨_, (cfEncode_ok_iff c _).2 ⟨hq, rfl⟩⟩, fun restricted f c e => ?_⟩
  · simp [cfDecode_ok_iff, e]
  · exact ((cfDecode_ok_iff restricted f c).1 e).1

end Sys2Proof.Proofs.ConnectFlags
end

section
/-! PROOF. The statements of 45_connect_vh.md: CVH.DEC's checks in their order, the ten bytes of CVH.ENC, and
the records that survive both. -/

namespace Sys2Proof.Proofs.ConnectVh

open Sys2Proof.Machine

/-! ## The two commands over their functions (R180, R181) -/

theorem execAt_cvhDec_of_ok {restricted : Bool} {s : State} {pt : BitVec 4} {bs : List Byte}
    {h : ConnectHeader} {off : Nat} (hp : s.req.aPtype = pt) (hb : s.req.holds bs)
    (e : cvhDecode restricted pt bs = .ok (h, off)) :
    execAt restricted .cvhDec s =
      .next (s.okWith { withConnect h Results.empty with rRemOff := some off }) := by
  rw [execAt_of_holds hb, responseOf, cvhDecResults, hp, e]
  rfl

theorem execAt_cvhDec_of_error {restricted : Bool} {s : State} {pt : BitVec 4} {bs : List Byte}
    {r : Reason} (hp : s.req.aPtype = pt) (hb : s.req.holds bs)
    (e : cvhDecode restricted pt bs = .error r) :
    execAt restricted .cvhDec s = .next (s.failedWith (statusOf r)) := by
  rw [execAt_of_holds hb, responseOf, cvhDecResults, hp, e]
  rfl

/-- CVH.ENC fails only in its flags (R181), so their byte decides what it emits. -/
theorem exec_cvhEnc_of_cfEncode_ok {s : State} {f : Byte} (e : cfEncode (flagsOperand s.req) = .ok f) :
    exec .cvhEnc s = .next (s.okWith (Results.ofOut (cvhBytes f s.req.aKeepalive))) := by
  rw [exec_of_not_readsIn rfl s [], responseOf, cvhEncResults, cvhEncode, e, ← emitAll_eq]
  rfl

theorem exec_cvhEnc_of_cfEncode_error {s : State} {r : Reason}
    (e : cfEncode (flagsOperand s.req) = .error r) :
    exec .cvhEnc s = .next (s.failedWith (statusOf r)) := by
  rw [exec_of_not_readsIn rfl s [], responseOf, cvhEncResults, cvhEncode, e]
  rfl

/-! ## CVHDecode, check by check (R180) -/

theorem cvhDecode_badName {bs : List Byte} (hl : 10 ≤ bs.length)
    (hn : bs.take 6 ≠ [0x00, 0x04, 0x4D, 0x51, 0x54, 0x54]) (restricted : Bool) :
    cvhDecode restricted 1 bs = .error .badProtocolName := by
  obtain ⟨b0, b1, b2, b3, b4, b5, level, flags, hi, lo, rest, rfl⟩ := exists_ten hl
  have hname : [b0, b1, b2, b3, b4, b5] ≠ Config.protocolNamePrefix := hn
  rw [cvhDecode_ten, cvhDecodeBody, if_pos hname]

theorem cvhDecode_badLevel {bs : List Byte} (hl : 10 ≤ bs.length)
    (hn : bs.take 6 = [0x00, 0x04, 0x4D, 0x51, 0x54, 0x54]) (hv : bs[6]? ≠ some 0x04)
    (restricted : Bool) : cvhDecode restricted 1 bs = .error .unsupportedProtocolLevel := by
  obtain ⟨b0, b1, b2, b3, b4, b5, level, flags, hi, lo, rest, rfl⟩ := exists_ten hl
  have hname : [b0, b1, b2, b3, b4, b5] = Config.protocolNamePrefix := hn
  have hlevel : level ≠ Config.protocolLevel := fun h => hv (congrArg some h)
  rw [cvhDecode_ten, cvhDecodeBody, if_neg (not_not.2 hname), if_pos hlevel]

/-- With a right name and level, an accepted flags byte gives the header. -/
theorem cvhDecode_of_cfDecode_ok {restricted : Bool} {f : Byte} {c : ConnectFlags}
    (e : cfDecode restricted f = .ok c) (hi lo : Byte) (rest : List Byte) :
    cvhDecode restricted 1 ([0x00, 0x04, 0x4D, 0x51, 0x54, 0x54, 0x04, f, hi, lo] ++ rest) =
      .ok (⟨c, keepAliveOf hi lo⟩, 10) := by
  rw [cvhDecode_flags, e]

/-- With a right name and level, the error of the flags byte is CVHDecode's (R240). -/
theorem cvhDecode_of_cfDecode_error {restricted : Bool} {f : Byte} {r : Reason}
    (e : cfDecode restricted f = .error r) (hi lo : Byte) (rest : List Byte) :
    cvhDecode restricted 1 ([0x00, 0x04, 0x4D, 0x51, 0x54, 0x54, 0x04, f, hi, lo] ++ rest) =
      .error r := by
  rw [cvhDecode_flags, e]

/-- Settles O38: the checks are `cvhDecode_wrongType`, `cvhDecode_short`, `cvhDecode_badName`,
`cvhDecode_badLevel` and those of the flags byte; restricted, 0x02 is the accepted one. -/
theorem cvhDecChecksThenExtracts : Obligations.CvhDecChecksThenExtracts := by
  refine ⟨fun restricted s hp hin => ?_, fun restricted s bs hp hb hl => ?_,
    fun restricted s bs hp hb hl hn => ?_, fun restricted s bs hp hb hl hn hv => ?_,
    fun restricted s f hi lo rest r hp hb e => ?_, fun restricted s f hi lo rest c hp hb e => ?_,
    fun s hi lo rest hp hb => ?_⟩
  · obtain ⟨bs, hb⟩ := (exists_holds_iff s.req).2 hin
    exact execAt_cvhDec_of_error rfl hb (cvhDecode_wrongType hp restricted bs)
  · exact execAt_cvhDec_of_error hp hb (cvhDecode_short hl restricted)
  · exact execAt_cvhDec_of_error hp hb (cvhDecode_badName hl hn restricted)
  · exact execAt_cvhDec_of_error hp hb (cvhDecode_badLevel hl hn hv restricted)
  · exact execAt_cvhDec_of_error hp hb (cvhDecode_of_cfDecode_error e hi lo rest)
  · exact execAt_cvhDec_of_ok hp hb (cvhDecode_of_cfDecode_ok e hi lo rest)
  · have e : cfDecode true 0x02 = .ok ⟨true, false, 0, false, false, false⟩ :=
      (ConnectFlags.cfDecode_ok_iff true _ _).2 ⟨ConnectFlags.cfEncode_cleanSession, fun _ => rfl⟩
    rw [Scope.exec_eq_execAt_cfDecodeRestricted, Scope.cfDecodeRestricted_eq_true]
    exact execAt_cvhDec_of_ok hp hb (cvhDecode_of_cfDecode_ok e hi lo rest)

/-! ## CVH.ENC (R181) -/

/-- Settles O39: the flags byte is the number of `cfByte_eq`, the ten bytes are those of `cvhBytes_eq`, and
a willQoS of 3 is CFEncode's one error. -/
theorem cvhEncEmitsTheHeader : Obligations.CvhEncEmitsTheHeader := by
  refine ⟨fun s hq => ?_, fun s hq => ?_⟩
  · have e : cfEncode (flagsOperand s.req) = .ok (cfByte (flagsOperand s.req)) :=
      (cfEncode_ok_iff _ _).2 ⟨hq, rfl⟩
    rw [exec_cvhEnc_of_cfEncode_ok e, cvhBytes_eq, cfByte_eq]
    rfl
  · have e : cfEncode (flagsOperand s.req) = .error .invalidQosOperand :=
      if_pos ((isReservedQos_iff _).2 hq)
    exact exec_cvhEnc_of_cfEncode_error e

/-! ## Round trip (R182) -/

/-- An encoded record that either decoder accepts comes back as itself. -/
theorem eq_of_cfEncode_of_cfDecode {restricted : Bool} {f : Byte} {c d : ConnectFlags}
    (he : cfEncode c = .ok f) (hd : cfDecode restricted f = .ok d) : d = c := by
  obtain ⟨-, rfl⟩ := (cfEncode_ok_iff c f).1 he
  exact (cfDecode_ok hd).1.trans (cfFields_cfByte c).1

/-- CVHDecode of the bytes of an accepted flags byte and a keepAlive gives both back. -/
theorem cvhDecode_cvhBytes {restricted : Bool} {f : Byte} {c : ConnectFlags}
    (e : cfDecode restricted f = .ok c) (k : BitVec 16) :
    cvhDecode restricted 1 (cvhBytes f k) = .ok (⟨c, k⟩, 10) := by
  have h := cvhDecode_of_cfDecode_ok e (k.extractLsb' 8 8) (k.extractLsb' 0 8) []
  rwa [keepAliveOf_bytes] at h

/-- Of the encoded records, the restricted decoder accepts cleanSession alone. -/
theorem cfDecode_restricted_accepts_encoded_iff {c : ConnectFlags} {f : Byte} (e : cfEncode c = .ok f) :
    (∃ d, cfDecode true f = .ok d) ↔ c = ⟨true, false, 0, false, false, false⟩ := by
  constructor
  · rintro ⟨d, hd⟩
    obtain rfl := eq_of_cfEncode_of_cfDecode e hd
    exact ((ConnectFlags.cfDecode_ok_iff true f d).1 hd).2 rfl
  · exact fun hc => ⟨c, (ConnectFlags.cfDecode_ok_iff true f c).2 ⟨e, fun _ => hc⟩⟩

/-- Settles O40: CVH.DEC reads the header CVH.ENC emitted, and the accepted record is the encoded one. -/
theorem connectHeaderRoundTrip : Obligations.ConnectHeaderRoundTrip := by
  refine ⟨fun restricted s f c he hd => ?_, fun c f e => cfDecode_restricted_accepts_encoded_iff e⟩
  obtain rfl := eq_of_cfEncode_of_cfDecode he hd
  exact ⟨_, cvhBytes f s.req.aKeepalive, exec_cvhEnc_of_cfEncode_ok he,
    RemainingLength.readResult_out_of_ofOut rfl, rfl,
    execAt_cvhDec_of_ok (h := ⟨flagsOperand s.req, s.req.aKeepalive⟩) rfl (holds_withInput s.req _)
      (cvhDecode_cvhBytes hd _)⟩

end Sys2Proof.Proofs.ConnectVh
end

section
/-! PROOF. The statement of 46_connack_vh.md: the two bytes of CAVH.ENC. -/

namespace Sys2Proof.Proofs.ConnackVh

open Sys2Proof.Machine

/-! ## CAVH.ENC (R200, R89) -/

theorem cavhBytes_eq (sp : Bool) (rc : Byte) : cavhBytes sp rc = [if sp then 0x01 else 0x00, rc] := rfl

/-- CAVH.ENC has no error: it always responds with its two bytes in OUT. -/
theorem exec_cavhEnc (s : State) :
    exec .cavhEnc s = .next (s.okWith (Results.ofOut (cavhBytes s.req.aSp s.req.aRc))) := by
  rw [exec_of_not_readsIn rfl s [], responseOf, emitAll_eq]
  rfl

/-- Settles O41: the bytes that `exec_cavhEnc` leaves in OUT are those of `cavhBytes_eq`. -/
theorem cavhEncEmitsTwoBytes : Obligations.CavhEncEmitsTwoBytes := fun s => by
  rw [exec_cavhEnc, cavhBytes_eq]

end Sys2Proof.Proofs.ConnackVh
end

section
/-! PROOF. The statements of 47_frame.md: the two stages of FRAME.DEC, FRAME.ENC as FHEncode with the body
behind it, and the two as inverse. -/

namespace Sys2Proof.Proofs.Frame

open Sys2Proof.Machine

/-! ## FRAME.DEC over its two stages (R210, R212) -/

theorem execAt_frameDec_of_fhDecode_error {restricted : Bool} {s : State} {bs : List Byte} {r : Reason}
    (hb : s.req.holds bs) (e : fhDecode bs = .error r) :
    execAt restricted .frameDec s = .next (s.failedWith (statusOf r)) := by
  rw [execAt_of_holds hb, responseOf, frameDecResults, e]
  rfl

/-- Any packet type but CONNECT ends after Stage 1. -/
theorem execAt_frameDec_of_stage1 {s : State} {bs : List Byte} {h : FixedHeader} {off : Nat}
    (hb : s.req.holds bs) (e : fhDecode bs = .ok (h, off)) (hp : h.packetType ≠ 1) (restricted : Bool) :
    execAt restricted .frameDec s = .next (s.okWith
      { withHeader h Results.empty with
        rVh := some false
        rRemOff := some off }) := by
  rw [execAt_of_holds hb, responseOf, frameDecResults, e]
  dsimp only
  rw [if_neg (show h.packetType ≠ Config.ptConnect from hp)]
  rfl

/-- For CONNECT, FRAME.DEC is CVHDecode of what follows the Fixed Header. -/
theorem frameDecResults_connect {restricted : Bool} {bs : List Byte} {h : FixedHeader} {off : Nat}
    (e : fhDecode bs = .ok (h, off)) (hp : h.packetType = 1) :
    frameDecResults restricted bs =
      (cvhDecode restricted 1 (bs.drop off)).map fun p =>
        { withConnect p.1 (withHeader h Results.empty) with
          rVh := some true
          rRemOff := some (off + p.2) } := by
  rw [frameDecResults, e]
  dsimp only
  rw [if_pos (show h.packetType = Config.ptConnect from hp), hp]
  cases cvhDecode restricted 1 (bs.drop off) <;> rfl

theorem execAt_frameDec_of_stage2 {restricted : Bool} {s : State} {bs : List Byte} {h : FixedHeader}
    {off : Nat} {v : ConnectHeader} {off2 : Nat} (hb : s.req.holds bs) (e : fhDecode bs = .ok (h, off))
    (hp : h.packetType = 1) (ev : cvhDecode restricted 1 (bs.drop off) = .ok (v, off2)) :
    execAt restricted .frameDec s = .next (s.okWith
      { withConnect v (withHeader h Results.empty) with
        rVh := some true
        rRemOff := some (off + off2) }) := by
  rw [execAt_of_holds hb, responseOf, frameDecResults_connect e hp, ev]
  rfl

theorem execAt_frameDec_of_cvhDecode_error {restricted : Bool} {s : State} {bs : List Byte}
    {h : FixedHeader} {off : Nat} {r : Reason} (hb : s.req.holds bs) (e : fhDecode bs = .ok (h, off))
    (hp : h.packetType = 1) (ev : cvhDecode restricted 1 (bs.drop off) = .error r) :
    execAt restricted .frameDec s = .next (s.failedWith (statusOf r)) := by
  rw [execAt_of_holds hb, responseOf, frameDecResults_connect e hp, ev]
  rfl

/-! ## The two stages on the bytes of a frame -/

theorem packetType_headerOf_eq_one_iff (b0 : Byte) (f : List Byte) :
    (headerOf b0 f).packetType = 1 ↔ b0.toNat / 16 = 1 := by
  have hlt : b0.toNat / 16 < 2 ^ 4 := by have := b0.isLt; omega
  rw [FixedHeader.headerOf_eq, ← BitVec.toNat_inj, BitVec.toNat_ofNat, Nat.mod_eq_of_lt hlt]
  rfl

/-- The offset after Stage 1 is where Stage 2 begins. -/
theorem drop_fixedHeader (b0 : Byte) (f rest : List Byte) :
    (b0 :: (f ++ rest)).drop (1 + f.length) = rest := by
  rw [Nat.add_comm, List.drop_succ_cons, List.drop_left]

section
variable {restricted : Bool} {s : State} {b0 : Byte} {f rest : List Byte}
  (hp : b0.toNat / 16 = 1) (hq : b0.toNat / 2 % 4 ≠ 3) (hf : isRlField f)
  (hb : s.req.holds (b0 :: (f ++ rest)))
include hp hq hf hb

/-- A CONNECT frame whose Variable Header CVHDecode accepts, all ports of both stages on byte 0 as a
number. -/
theorem execAt_frameDec_connect {v : ConnectHeader} {off2 : Nat}
    (ev : cvhDecode restricted 1 rest = .ok (v, off2)) :
    execAt restricted .frameDec s = .next (s.okWith
      { withConnect v Results.empty with
        rPtype := some 1
        rDup := some (b0.toNat / 8 % 2 == 1)
        rQos := some (BitVec.ofNat 2 (b0.toNat / 2 % 4))
        rRetain := some (b0.toNat % 2 == 1)
        rRlen := some (BitVec.ofNat 28 (digitsValue f))
        rVh := some true
        rRemOff := some (1 + f.length + off2) }) := by
  rw [execAt_frameDec_of_stage2 hb (fhDecode_field hq hf rest)
    ((packetType_headerOf_eq_one_iff b0 f).2 hp) ((drop_fixedHeader b0 f rest).symm ▸ ev),
    FixedHeader.headerOf_eq, hp]
  rfl

/-- Stage 2's error is FRAME.DEC's (R240), and Stage 1 is discarded. -/
theorem execAt_frameDec_connect_error {r : Reason} (ev : cvhDecode restricted 1 rest = .error r) :
    execAt restricted .frameDec s = .next (s.failedWith (statusOf r)) :=
  execAt_frameDec_of_cvhDecode_error hb (fhDecode_field hq hf rest)
    ((packetType_headerOf_eq_one_iff b0 f).2 hp) ((drop_fixedHeader b0 f rest).symm ▸ ev)

end

/-- Settles O42: Stage 1 is FHDecode, whose type field is the high digit of byte 0, and Stage 2 is CVHDecode;
0x02 is the accepted flags byte, and fewer than ten bytes are CVHDecode's SHORT_BUFFER. -/
theorem frameDecRunsTheTwoStages : Obligations.FrameDecRunsTheTwoStages := by
  refine ⟨fun s b0 f rest hp hq hf hb restricted => ?_,
    fun restricted s b0 f rest v off2 hp hq hf hb ev =>
      ⟨(Responses.cvhDecode_offset ev).1, execAt_frameDec_connect hp hq hf hb ev⟩,
    fun s b0 hi lo f rest hp hq hf hb => ?_,
    fun restricted s b0 f rest e hp hq hf hb ev => execAt_frameDec_connect_error hp hq hf hb ev,
    fun restricted s b0 f rest hp hq hf hl hb =>
      execAt_frameDec_connect_error hp hq hf hb (cvhDecode_short hl restricted),
    fun restricted s bs e hb he => execAt_frameDec_of_fhDecode_error hb he⟩
  · rw [execAt_frameDec_of_stage1 hb (fhDecode_field hq hf rest)
      ((packetType_headerOf_eq_one_iff b0 f).not.2 hp), FixedHeader.headerOf_eq]
    rfl
  · have e : cfDecode true 0x02 = .ok ⟨true, false, 0, false, false, false⟩ :=
      (ConnectFlags.cfDecode_ok_iff true _ _).2 ⟨ConnectFlags.cfEncode_cleanSession, fun _ => rfl⟩
    rw [Scope.hardwareRunsTheRestrictedDecoders]
    exact execAt_frameDec_connect hp hq hf hb (ConnectVh.cvhDecode_of_cfDecode_ok e hi lo rest)

/-! ## FRAME.ENC (R211) -/

theorem exec_frameEnc_of_fhEncode_ok {s : State} {body bs : List Byte} (hb : s.req.holds body)
    (e : fhEncode s.req.aPtype s.req.aDup s.req.aQos s.req.aRetain body.length = .ok bs) :
    exec .frameEnc s = .next (s.okWith (Results.ofOut (bs ++ body))) := by
  rw [exec_of_holds hb, responseOf, frameEncResults, e, ← emitAll_eq]
  rfl

theorem exec_frameEnc_of_fhEncode_error {s : State} {body : List Byte} {r : Reason}
    (hb : s.req.holds body)
    (e : fhEncode s.req.aPtype s.req.aDup s.req.aQos s.req.aRetain body.length = .error r) :
    exec .frameEnc s = .next (s.failedWith (statusOf r)) := by
  rw [exec_of_holds hb, responseOf, frameEncResults, e]
  rfl

/-- A valid QoS and a body in range give a frame: byte 0, the minimal field of the body's length, the
body. -/
theorem exec_frameEnc_spec {s : State} {body : List Byte} (hq : s.req.aQos ≠ 3)
    (hl : body.length ≤ 268435455) (hb : s.req.holds body) :
    ∃ f, isRlEncoding body.length f ∧ exec .frameEnc s = .next (s.okWith (Results.ofOut
      (fhByte0 s.req.aPtype s.req.aDup s.req.aQos s.req.aRetain :: (f ++ body)))) := by
  obtain ⟨f, e, hf⟩ := fhEncode_spec hq hl s.req.aPtype s.req.aDup s.req.aRetain
  exact ⟨f, hf, exec_frameEnc_of_fhEncode_ok hb e⟩

/-- Settles O43: the frame is that of `exec_frameEnc_spec`, with byte 0 as a number, and the errors are those
of FHEncode. -/
theorem frameEncEmitsHeaderAndBody : Obligations.FrameEncEmitsHeaderAndBody := by
  refine ⟨fun s body hq hl hb => ?_, fun s hq hin => ?_,
    fun s body hq hl hb => exec_frameEnc_of_fhEncode_error hb (fhEncode_tooBig hq hl _ _ _)⟩
  · rw [← fhByte0_eq]
    exact exec_frameEnc_spec hq hl hb
  · obtain ⟨body, hb⟩ := (exists_holds_iff s.req).2 hin
    exact exec_frameEnc_of_fhEncode_error hb (hq ▸ fhEncode_qosThree _ _ _ _)

/-! ## Round trip (R213) -/

/-- Stage 1 reads the header FHEncode put before the body. -/
theorem fhDecode_frame {qos : BitVec 2} {v : Nat} {f : List Byte} (hq : qos ≠ 3) (hf : isRlEncoding v f)
    (pt : BitVec 4) (dup retain : Bool) (body : List Byte) :
    fhDecode (fhByte0 pt dup qos retain :: (f ++ body)) =
      .ok (⟨pt, dup, qos, retain, v⟩, 1 + f.length) := by
  obtain ⟨hfield, -, rfl, -⟩ := hf
  rw [fhDecode_field (qosCode_fhByte0 hq pt dup retain) hfield, headerOf_fhByte0]

/-- A frame of any packet type but CONNECT decodes to its header, with the body as the remainder. -/
theorem execAt_frameDec_frame {s : State} {pt : BitVec 4} {dup retain : Bool} {qos : BitVec 2} {v : Nat}
    {f body : List Byte} (hp : pt ≠ 1) (hq : qos ≠ 3) (hf : isRlEncoding v f)
    (hb : s.req.holds (fhByte0 pt dup qos retain :: (f ++ body))) (restricted : Bool) :
    execAt restricted .frameDec s = .next (s.okWith
      { withHeader ⟨pt, dup, qos, retain, v⟩ Results.empty with
        rVh := some false
        rRemOff := some (1 + f.length) }) :=
  execAt_frameDec_of_stage1 hb (fhDecode_frame hq hf pt dup retain body) hp restricted

/-- A framed CONNECT Variable Header comes back, with its Fixed Header. The field of its length, 10, is one
byte, so that the header ends at 12. -/
theorem execAt_frameDec_connectFrame {restricted : Bool} {s : State} {dup retain : Bool} {qos : BitVec 2}
    {f : List Byte} {flags : Byte} {c : ConnectFlags} {k : BitVec 16} (hq : qos ≠ 3)
    (hf : isRlEncoding 10 f) (hc : cfDecode restricted flags = .ok c)
    (hb : s.req.holds (fhByte0 1 dup qos retain :: (f ++ cvhBytes flags k))) :
    execAt restricted .frameDec s = .next (s.okWith
      { withConnect ⟨c, k⟩ (withHeader ⟨1, dup, qos, retain, 10⟩ Results.empty) with
        rVh := some true
        rRemOff := some 12 }) := by
  have hlen : f.length = 1 := by
    obtain ⟨-, -, -, hl⟩ := hf
    exact hl
  have ev := ConnectVh.cvhDecode_cvhBytes hc k
  rw [← drop_fixedHeader (fhByte0 1 dup qos retain) f (cvhBytes flags k)] at ev
  rw [execAt_frameDec_of_stage2 hb (fhDecode_frame hq hf 1 dup retain _) rfl ev, hlen]

/-- Settles O44: FRAME.DEC reads what FRAME.ENC emitted by `execAt_frameDec_connectFrame` and
`execAt_frameDec_frame`, and the accepted record is the encoded one. -/
theorem frameRoundTrip : Obligations.FrameRoundTrip := by
  refine ⟨fun restricted s flags c he hd hq => ?_, fun restricted s body hb hp hq hl => ?_⟩
  · obtain rfl := ConnectVh.eq_of_cfEncode_of_cfDecode he hd
    have hbody : (cvhBytes flags s.req.aKeepalive).length = 10 := rfl
    obtain ⟨f, hf, hu⟩ := exec_frameEnc_spec
      (s := { s.okWith (Results.ofOut (cvhBytes flags s.req.aKeepalive)) with
        req := { s.req.withInput (cvhBytes flags s.req.aKeepalive) with aPtype := 1 } })
      hq (by rw [hbody]; decide) (holds_withInput s.req _)
    exact ⟨_, _, _, _, ConnectVh.exec_cvhEnc_of_cfEncode_ok he,
      RemainingLength.readResult_out_of_ofOut rfl, hu, RemainingLength.readResult_out_of_ofOut rfl,
      execAt_frameDec_connectFrame hq (hbody ▸ hf) hd (holds_withInput _ _)⟩
  · obtain ⟨f, hf, hu⟩ := exec_frameEnc_spec hq hl hb
    exact ⟨_, _, 1 + f.length, hu, RemainingLength.readResult_out_of_ofOut rfl,
      execAt_frameDec_frame hp hq hf (holds_withInput _ _) restricted, drop_fixedHeader _ _ _⟩

end Sys2Proof.Proofs.Frame
end

section
/-! PROOF. The statements of 60_exceptions.md: the table of reasons and which command raises which, the
request no command writes, the errors a caller passes on, and the independence of the instances. -/

namespace Sys2Proof.Proofs.Exceptions

open Sys2Proof.Machine

/-! ## The request (R51, R231) -/

/-- Settles O13: a command leaves the whole request as it is, IN among its ports. -/
theorem noCommandWritesTheRequest : Obligations.NoCommandWritesTheRequest :=
  fun _ _ _ h => ⟨exec_req h, fun _ => by rw [exec_req h]⟩

/-! ## The table of reasons (R232) -/

theorem mem_reason_all (e : Reason) : e ∈ Reason.all := by
  cases e <;> decide

theorem statusWords_eq_table :
    Reason.all.map statusOf =
      [0x0101, 0x0201, 0x1002, 0x1102, 0x1202, 0x1302, 0x1402, 0x2003, 0x2103, 0x2203, 0x2303, 0x2403,
        0x2503, 0x3004, 0x3104, 0x4005] := by
  decide

theorem statusWords_nodup : (Reason.all.map statusOf).Nodup := by
  rw [statusWords_eq_table]
  decide

/-- Settles O12: the table lists every reason, and no word of it twice. -/
theorem reasonCodesAreTheTable : Obligations.ReasonCodesAreTheTable :=
  ⟨statusWords_eq_table, fun d e h =>
    List.inj_on_of_nodup_map statusWords_nodup (mem_reason_all d) (mem_reason_all e) h⟩

/-! ## The listed reasons are those of the functions a command calls (R233, R240) -/

theorem mem_reasonsOf_rlDec_iff (restricted : Bool) (e : Reason) :
    e ∈ reasonsOf restricted .rlDec ↔ ∃ bs, rlDecode bs = .error e := by
  simp only [reasonsOf, List.mem_cons, List.not_mem_nil, or_false]
  constructor
  · rintro (rfl | rfl)
    · exact ⟨[], rfl⟩
    · exact ⟨[0x80, 0x80, 0x80, 0x80], rfl⟩
  · exact fun ⟨_, h⟩ => rlDecode_error h

theorem mem_reasonsOf_fhDec_iff (restricted : Bool) (e : Reason) :
    e ∈ reasonsOf restricted .fhDec ↔ ∃ bs, fhDecode bs = .error e := by
  simp only [reasonsOf, List.mem_cons, List.not_mem_nil, or_false]
  constructor
  · rintro (rfl | rfl | rfl)
    · exact ⟨[], rfl⟩
    · exact ⟨[0x06, 0x00], rfl⟩
    · exact ⟨[0x00, 0x80, 0x80, 0x80, 0x80], rfl⟩
  · exact fun ⟨_, h⟩ => fhDecode_error h

/-- A flags byte that CFDecode rejects for the given reason: the field the reason speaks of is wrong, and no
field tested before it is. A reason that CFDecode does not have is given 0x00. -/
def rejectedFlags : Reason → Byte
  | .reservedFlagBit => 0x01
  | .reservedQos => 0x18
  | .cleanSessionUnset => 0x00
  | .willFlagSet => 0x06
  | .willQosNonzero => 0x0A
  | .willRetainSet => 0x22
  | .passwordFlagSet => 0x42
  | .usernameFlagSet => 0x82
  | _ => 0x00

theorem cfDecode_rejectedFlags (restricted : Bool) :
    ∀ e ∈ reasonsOf restricted .cfDec, cfDecode restricted (rejectedFlags e) = .error e := by
  cases restricted <;> decide

theorem mem_reasonsOf_cfDec_iff (restricted : Bool) (e : Reason) :
    e ∈ reasonsOf restricted .cfDec ↔ ∃ f, cfDecode restricted f = .error e := by
  refine ⟨fun h => ⟨_, cfDecode_rejectedFlags restricted e h⟩, fun ⟨f, h⟩ => ?_⟩
  rcases cfDecode_error h with rfl | rfl | ⟨rfl, he⟩
  · simp [reasonsOf]
  · simp [reasonsOf]
  · exact List.mem_append_right _ he

/-- Once the packet type is right, CVHDecode has three checks before those of the flags byte. -/
theorem exists_cvhDecode_error_iff (restricted : Bool) (e : Reason) :
    (∃ bs, cvhDecode restricted 1 bs = .error e) ↔
      e = .shortBuffer ∨ e = .badProtocolName ∨ e = .unsupportedProtocolLevel ∨
        e ∈ reasonsOf restricted .cfDec := by
  rw [mem_reasonsOf_cfDec_iff]
  constructor
  · rintro ⟨bs, h⟩
    exact (cvhDecode_error h).resolve_left fun ⟨_, h1⟩ => h1 rfl
  · rintro (rfl | rfl | rfl | ⟨f, hf⟩)
    · exact ⟨[], cvhDecode_short (by decide) restricted⟩
    · exact ⟨List.replicate 10 0, ConnectVh.cvhDecode_badName (by decide) (by decide) restricted⟩
    · exact ⟨[0x00, 0x04, 0x4D, 0x51, 0x54, 0x54, 0x03, 0x02, 0x00, 0x00],
        ConnectVh.cvhDecode_badLevel (by decide) rfl (by decide) restricted⟩
    · exact ⟨_, ConnectVh.cvhDecode_of_cfDecode_error hf 0 0 []⟩

theorem mem_reasonsOf_cvhDec_iff (restricted : Bool) (e : Reason) :
    e ∈ reasonsOf restricted .cvhDec ↔
      e = .wrongPacketType ∨ ∃ bs, cvhDecode restricted 1 bs = .error e := by
  rw [exists_cvhDecode_error_iff]
  simp only [reasonsOf, List.mem_append, List.mem_cons, List.not_mem_nil, or_false, or_assoc]

/-- FRAME.DEC runs Stage 2 on a CONNECT alone, so it lists no WRONG_PACKET_TYPE. -/
theorem mem_reasonsOf_frameDec_iff (restricted : Bool) (e : Reason) :
    e ∈ reasonsOf restricted .frameDec ↔
      (∃ bs, fhDecode bs = .error e) ∨ ∃ bs, cvhDecode restricted 1 bs = .error e := by
  rw [exists_cvhDecode_error_iff, ← mem_reasonsOf_fhDec_iff restricted]
  simp only [reasonsOf, List.mem_append, List.mem_cons, List.not_mem_nil, or_false]
  tauto

/-! ## A command raises only what is listed (R233) -/

theorem rlEncode_error {v : Nat} {e : Reason} (h : rlEncode v = .error e) : e = .valueOutOfRange := by
  rcases Nat.lt_or_ge 268435455 v with hv | hv
  · rw [rlEncode_tooBig hv] at h
    exact (Except.error.inj h).symm
  · obtain ⟨f, hf, -⟩ := rlEncode_spec hv
    cases hf.symm.trans h

theorem fhEncode_error {pt : BitVec 4} {dup retain : Bool} {qos : BitVec 2} {v : Nat} {e : Reason}
    (h : fhEncode pt dup qos retain v = .error e) : e = .invalidQosOperand ∨ e = .valueOutOfRange := by
  unfold fhEncode at h
  split at h
  · exact .inl (Except.error.inj h).symm
  · split at h <;> cases h
    exact .inr (rlEncode_error ‹_›)

theorem cvhEncode_error {c : ConnectFlags} {k : BitVec 16} {e : Reason}
    (h : cvhEncode c k = .error e) : e = .invalidQosOperand := by
  unfold cvhEncode at h
  split at h <;> cases h
  exact cfEncode_error ‹_›

theorem mem_reasonsOf_of_responseOf {restricted : Bool} {i : Instr} {q : Request} {bs : List Byte}
    {e : Reason} (h : responseOf restricted i q bs = .error e) : e ∈ reasonsOf restricted i := by
  cases i with
  | bitGet | bitSet | cavhEnc => cases h
  | reservedCavhDec => cases h; exact List.mem_singleton_self _
  | rlDec =>
    simp only [responseOf, rlDecResults] at h
    split at h <;> cases h
    exact (mem_reasonsOf_rlDec_iff _ _).2 ⟨_, ‹_›⟩
  | rlEnc =>
    simp only [responseOf, rlEncResults] at h
    split at h <;> cases h
    exact List.mem_singleton.2 (rlEncode_error ‹_›)
  | fhDec =>
    simp only [responseOf, fhDecResults] at h
    split at h <;> cases h
    exact (mem_reasonsOf_fhDec_iff _ _).2 ⟨_, ‹_›⟩
  | fhEnc | frameEnc =>
    simp only [responseOf, fhEncResults, frameEncResults] at h
    split at h <;> cases h
    exact List.mem_pair.2 (fhEncode_error ‹_›)
  | cfDec =>
    simp only [responseOf, cfDecResults] at h
    split at h <;> cases h
    exact (mem_reasonsOf_cfDec_iff _ _).2 ⟨_, ‹_›⟩
  | cfEnc =>
    simp only [responseOf, cfEncResults] at h
    split at h <;> cases h
    exact List.mem_singleton.2 (cfEncode_error ‹_›)
  | cvhEnc =>
    simp only [responseOf, cvhEncResults] at h
    split at h <;> cases h
    exact List.mem_singleton.2 (cvhEncode_error ‹_›)
  | cvhDec =>
    simp only [responseOf, cvhDecResults] at h
    split at h <;> cases h
    rename_i hcvh
    refine (mem_reasonsOf_cvhDec_iff _ _).2 ?_
    by_cases hp : q.aPtype = 1
    · exact .inr ⟨bs, hp ▸ hcvh⟩
    · rw [cvhDecode_wrongType hp] at hcvh
      exact .inl (Except.error.inj hcvh).symm
  | frameDec =>
    refine (mem_reasonsOf_frameDec_iff _ _).2 ?_
    simp only [responseOf, frameDecResults] at h
    split at h
    · cases h
      exact .inl ⟨bs, ‹_›⟩
    · split at h
      · rename_i hp
        split at h <;> cases h
        rename_i hcvh
        rw [hp] at hcvh
        exact .inr ⟨_, hcvh⟩
      · cases h

/-! ## A command raises all that is listed (R233) -/

/-- Some request makes the command raise the reason. -/
def Raised (restricted : Bool) (i : Instr) (e : Reason) : Prop :=
  ∃ s t : State, execAt restricted i s = .next t ∧ t.status = statusOf e

theorem raised_of_failedWith {restricted : Bool} {i : Instr} {s : State} {e : Reason}
    (h : execAt restricted i s = .next (s.failedWith (statusOf e))) : Raised restricted i e :=
  ⟨s, _, h, rfl⟩

/-- The state right after reset, once the host has driven the request ports to `q`. -/
def presenting (q : Request) : State := { State.reset with req := q }

theorem presenting_holds (q : Request) (bs : List Byte) : (presenting (q.withInput bs)).req.holds bs :=
  holds_withInput q bs

theorem raised_frameDec_of_cvhDecode_error {restricted : Bool} {bs : List Byte} {e : Reason}
    (h : cvhDecode restricted 1 bs = .error e) : Raised restricted .frameDec e :=
  have hfield : isRlField [0x00] := ⟨[], 0x00, rfl, by decide, allContinue_nil, by decide⟩
  raised_of_failedWith (Frame.execAt_frameDec_connect_error (b0 := 0x10) (by decide) (by decide) hfield
    (presenting_holds Request.initial _) h)

theorem raised_of_mem_reasonsOf {restricted : Bool} {i : Instr} {e : Reason}
    (h : e ∈ reasonsOf restricted i) : Raised restricted i e := by
  cases i with
  | bitGet | bitSet | cavhEnc => cases h
  | reservedCavhDec =>
    obtain rfl := List.mem_singleton.1 h
    exact raised_of_failedWith (Encoding.exec_reservedCavhDec State.reset)
  | rlDec =>
    obtain ⟨bs, hbs⟩ := (mem_reasonsOf_rlDec_iff _ _).1 h
    exact raised_of_failedWith
      (RemainingLength.exec_rlDec_of_error (presenting_holds Request.initial bs) hbs)
  | rlEnc =>
    obtain rfl := List.mem_singleton.1 h
    exact raised_of_failedWith (s := presenting { Request.initial with aValue := 268435456 })
      (RemainingLength.exec_rlEnc_of_error (rlEncode_tooBig (by decide)))
  | fhDec =>
    obtain ⟨bs, hbs⟩ := (mem_reasonsOf_fhDec_iff _ _).1 h
    exact raised_of_failedWith
      (FixedHeader.exec_fhDec_of_error (presenting_holds Request.initial bs) hbs)
  | fhEnc =>
    rcases List.mem_pair.1 h with rfl | rfl
    · exact raised_of_failedWith (s := presenting { Request.initial with aQos := 3 })
        (FixedHeader.exec_fhEnc_of_error (fhEncode_qosThree _ _ _ _))
    · exact raised_of_failedWith (s := presenting { Request.initial with aValue := 268435456 })
        (FixedHeader.exec_fhEnc_of_error (fhEncode_tooBig (by decide) (by decide) _ _ _))
  | frameEnc =>
    rcases List.mem_pair.1 h with rfl | rfl
    · exact raised_of_failedWith (Frame.exec_frameEnc_of_fhEncode_error
        (presenting_holds { Request.initial with aQos := 3 } []) (fhEncode_qosThree _ _ _ _))
    · have hlong : 268435455 < (List.replicate 268435456 (0 : Byte)).length := by
        rw [List.length_replicate]; decide
      exact raised_of_failedWith (Frame.exec_frameEnc_of_fhEncode_error
        (presenting_holds Request.initial _) (fhEncode_tooBig (by decide) hlong _ _ _))
  | cfDec =>
    have he := cfDecode_rejectedFlags restricted e h
    exact raised_of_failedWith (s := presenting { Request.initial with aByte := rejectedFlags e })
      (by rw [ConnectFlags.execAt_cfDec, cfDecResults, presenting, he]; rfl)
  | cfEnc =>
    obtain rfl := List.mem_singleton.1 h
    exact raised_of_failedWith (s := presenting { Request.initial with aWqos := 3 })
      (ConnectFlags.exec_cfEnc_of_error rfl)
  | cvhEnc =>
    obtain rfl := List.mem_singleton.1 h
    exact raised_of_failedWith (s := presenting { Request.initial with aWqos := 3 })
      (ConnectVh.exec_cvhEnc_of_cfEncode_error rfl)
  | cvhDec =>
    rcases (mem_reasonsOf_cvhDec_iff _ _).1 h with rfl | ⟨bs, hbs⟩
    · exact raised_of_failedWith (ConnectVh.execAt_cvhDec_of_error rfl
        (presenting_holds Request.initial []) (cvhDecode_wrongType (by decide) restricted []))
    · exact raised_of_failedWith (ConnectVh.execAt_cvhDec_of_error rfl
        (presenting_holds { Request.initial with aPtype := 1 } bs) hbs)
  | frameDec =>
    rcases (mem_reasonsOf_frameDec_iff _ _).1 h with ⟨bs, hbs⟩ | ⟨bs, hbs⟩
    · exact raised_of_failedWith
        (Frame.execAt_frameDec_of_fhDecode_error (presenting_holds Request.initial bs) hbs)
    · exact raised_frameDec_of_cvhDecode_error hbs

/-! ## Each command's reasons (R76, R233, R241) -/

theorem eq_reserved_of_not_wellFormed {i : Instr} (h : i.wellFormed = false) : i = .reservedCavhDec := by
  cases i with
  | reservedCavhDec => rfl
  | _ => cases h

/-- Settles O15: what a command computes ends it with a listed reason or none, each listed one has its
request, and an illegal CMD is the reserved row or no row. -/
theorem exactlyTheListedReasonsAreRaised : Obligations.ExactlyTheListedReasonsAreRaised := by
  refine ⟨fun restricted i s t h => ?_, fun _ _ _ h => raised_of_mem_reasonsOf h,
    fun s t hill h => ?_⟩
  · obtain ⟨bs, -, rfl⟩ := execAt_next h
    cases hr : responseOf restricted i s.req bs with
    | ok r => exact .inl rfl
    | error e => exact .inr ⟨e, mem_reasonsOf_of_responseOf hr, rfl⟩
  · rcases step_next h with ⟨i, hi, hx⟩ | rfl
    · obtain rfl := eq_reserved_of_not_wellFormed (hill i hi)
      rw [Encoding.exec_reservedCavhDec] at hx
      cases hx
      rfl
    · rfl

/-! ## Errors of called functions (R240) -/

/-- The error of the Remaining Length field is FHEncode's. -/
theorem fhEncode_of_rlEncode_error {qos : BitVec 2} {v : Nat} {e : Reason} (hq : qos ≠ 3)
    (he : rlEncode v = .error e) (pt : BitVec 4) (dup retain : Bool) :
    fhEncode pt dup qos retain v = .error e := by
  simp [fhEncode, isReservedQos_eq_false hq, he]

/-- Settles O22: each call's error is its caller's, and the command ends with it. -/
theorem errorsPropagateUnchanged : Obligations.ErrorsPropagateUnchanged :=
  ⟨fun _ _ _ _ hb e => Frame.execAt_frameDec_of_fhDecode_error hb e,
    fun _ _ _ _ _ hb hq e => FixedHeader.exec_fhDec_of_error hb (fhDecode_fieldError hq e),
    fun _ _ _ hi lo rest _ hb hp e =>
      ConnectVh.execAt_cvhDec_of_error hp hb (ConnectVh.cvhDecode_of_cfDecode_error e hi lo rest),
    fun _ _ _ _ _ _ hb eh hp e => Frame.execAt_frameDec_of_cvhDecode_error hb eh hp e,
    fun _ _ hq e => FixedHeader.exec_fhEnc_of_error (fhEncode_of_rlEncode_error hq e _ _ _),
    fun _ _ e => ConnectVh.exec_cvhEnc_of_cfEncode_error e,
    fun _ _ _ hb e => Frame.exec_frameEnc_of_fhEncode_error hb e⟩

/-! ## Several instances (R34, R59, R253) -/

/-- An interaction replaces the one state it is with, `k`, by what it makes of that state. -/
theorem act_eq_next_iff {bound : Option Nat} {k : Nat} {op : HostOp} {y y' : System} :
    y.act bound k op = .next y' ↔
      ∃ s t, y.instances[k]? = some s ∧ hostAct bound op s = .next t ∧
        y' = { instances := y.instances.set k t } := by
  unfold System.act
  cases y.instances[k]? with
  | none => simp
  | some s => cases h : hostAct bound op s <;> simp [h, eq_comm]

/-- Settles O23: replacing one state of the list leaves the others, and replacements of two commute. -/
theorem instancesAreIndependent : Obligations.InstancesAreIndependent := by
  refine ⟨fun bound y y' j k a hjk h => ?_, fun bound y y1 y2 j k a b hjk h1 h2 => ?_⟩
  · obtain ⟨s, t, -, -, rfl⟩ := act_eq_next_iff.1 h
    exact List.getElem?_set_ne hjk
  · obtain ⟨s, t, hs, ht, rfl⟩ := act_eq_next_iff.1 h1
    obtain ⟨u, v, hu, hv, rfl⟩ := act_eq_next_iff.1 h2
    refine ⟨{ instances := (y.instances.set j t).set k v }, act_eq_next_iff.2 ⟨u, v, ?_, hv, rfl⟩,
      act_eq_next_iff.2 ⟨s, t, ?_, ht, ?_⟩⟩
    · exact (List.getElem?_set_ne hjk).trans hu
    · exact (List.getElem?_set_ne hjk.symm).trans hs
    · rw [List.set_comm t v hjk]

end Sys2Proof.Proofs.Exceptions
end

section
/-! PROOF. The statement of 70_reset_and_hazards.md: every command completes, looks at no byte of IN past
its bound, and emits no more than its own. -/

namespace Sys2Proof.Proofs.Hazards

open Sys2Proof.Machine Sys2Proof.Proofs.Responses

/-! ## The bytes a decoder looks at (R285)

Cutting IN after the bound leaves what the decoder answers. The bounds of the called functions are lower
bounds here, because their callers hand them what is left of a longer IN. -/

theorem rlDecodeLoop_take {left n : Nat} (hn : left ≤ n) (value mult k : Nat) (bs : List Byte) :
    rlDecodeLoop left value mult k (bs.take n) = rlDecodeLoop left value mult k bs := by
  induction left generalizing n value mult k bs with
  | zero => rfl
  | succ left ih =>
    obtain ⟨n, rfl⟩ := Nat.exists_eq_add_of_le' (show 1 ≤ n by omega)
    cases bs with
    | nil => rfl
    | cons b bs => simp only [List.take_succ_cons, rlDecodeLoop, ih (Nat.le_of_succ_le_succ hn)]

theorem rlDecode_take {n : Nat} (hn : 4 ≤ n) (bs : List Byte) : rlDecode (bs.take n) = rlDecode bs :=
  rlDecodeLoop_take hn 0 1 0 bs

theorem fhDecode_take {n : Nat} (hn : 5 ≤ n) (bs : List Byte) : fhDecode (bs.take n) = fhDecode bs := by
  obtain ⟨n, rfl⟩ := Nat.exists_eq_add_of_le' (show 2 ≤ n by omega)
  match bs with
  | [] | [_] => rfl
  | b0 :: b1 :: rest =>
    have hrl := rlDecode_take (n := n + 1) (by omega) (b1 :: rest)
    simp only [List.take_succ_cons] at hrl ⊢
    simp only [fhDecode, hrl]

theorem cvhDecode_take {n : Nat} (hn : 10 ≤ n) (restricted : Bool) (pt : BitVec 4) (bs : List Byte) :
    cvhDecode restricted pt (bs.take n) = cvhDecode restricted pt bs := by
  by_cases hpt : pt = 1
  · subst hpt
    rcases Nat.lt_or_ge bs.length 10 with hl | hl
    · rw [List.take_of_length_le (by omega)]
    · obtain ⟨b0, b1, b2, b3, b4, b5, level, flags, hi, lo, rest, rfl⟩ := exists_ten hl
      obtain ⟨n, rfl⟩ := Nat.exists_eq_add_of_le' hn
      simp only [List.take_succ_cons, cvhDecode_ten]
  · simp only [cvhDecode_wrongType hpt]

/-- Stage 1 ends after at most five bytes, so ten or more of the fifteen are left for Stage 2. -/
theorem frameDecResults_take {n : Nat} (hn : 15 ≤ n) (restricted : Bool) (bs : List Byte) :
    frameDecResults restricted (bs.take n) = frameDecResults restricted bs := by
  have hfh := fhDecode_take (n := n) (by omega) bs
  cases e : fhDecode bs with
  | error r => simp only [frameDecResults, hfh, e]
  | ok p =>
    obtain ⟨h, off⟩ := p
    obtain ⟨-, hoff, -⟩ := fhDecode_offset e
    have hcvh := cvhDecode_take (n := n - off) (by omega) restricted h.packetType (bs.drop off)
    simp only [frameDecResults, hfh, e, List.drop_take, hcvh]

/-- What a command computes, it computes from the bytes within its read bound. -/
theorem responseOf_take {i : Instr} {n : Nat} (h : readLimit i = some n) (restricted : Bool)
    (q : Request) (bs : List Byte) :
    responseOf restricted i q (bs.take n) = responseOf restricted i q bs := by
  cases i with
  | rlDec => cases h; simp only [responseOf, rlDecResults, rlDecode_take le_rfl]
  | fhDec => cases h; simp only [responseOf, fhDecResults, fhDecode_take le_rfl]
  | cvhDec => cases h; simp only [responseOf, cvhDecResults, cvhDecode_take le_rfl]
  | frameDec => cases h; exact frameDecResults_take le_rfl restricted bs
  | frameEnc => cases h
  | _ => rfl

/-- Two INs over which a command computes the same give the same response. -/
theorem sameResponse_of_responseOf_eq {i : Instr} {s s' : State} {bs bs' : List Byte}
    (hb : s.req.holds bs) (hb' : s'.req.holds bs')
    (h : responseOf true i s.req bs = responseOf true i s'.req bs') : sameResponse i s s' := by
  have he := exec_of_holds hb i
  rw [h] at he
  exact ⟨_, _, he, exec_of_holds hb' i, StateRules.respond_status_res _ s s'⟩

/-! ## The bytes an encoder emits (R285) -/

theorem rlEncode_length {v : Nat} {f : List Byte} (e : rlEncode v = .ok f) : f.length ≤ 4 := by
  rcases Nat.lt_or_ge 268435455 v with hv | hv
  · rw [rlEncode_tooBig hv] at e
    cases e
  · obtain ⟨g, hg, hfield, -⟩ := rlEncode_spec hv
    cases hg.symm.trans e
    exact (isRlField_length hfield).2

theorem fhEncode_length {pt : BitVec 4} {dup retain : Bool} {qos : BitVec 2} {v : Nat} {bs : List Byte}
    (e : fhEncode pt dup qos retain v = .ok bs) : bs.length ≤ 5 := by
  unfold fhEncode at e
  split at e
  · cases e
  · split at e <;> cases e
    rename_i f hf
    exact Nat.succ_le_succ (rlEncode_length hf)

theorem cvhEncode_length {c : ConnectFlags} {k : BitVec 16} {bs : List Byte}
    (e : cvhEncode c k = .ok bs) : bs.length = 10 := by
  unfold cvhEncode at e
  split at e <;> cases e
  rfl

/-- Only the five encoders that write OUT make OUT_LEN valid. -/
theorem returns_outLen {restricted : Bool} {q : Request} {bs : List Byte} {i : Instr} {r : Results}
    {n : Nat} (h : Returns restricted q bs i r) (hn : r.outLen = some n) :
    i ∈ [.rlEnc, .fhEnc, .cvhEnc, .cavhEnc, .frameEnc] := by
  cases h with
  | emits hi _ => exact hi
  | _ => cases hn

/-- What each of the five leaves in OUT_LEN. -/
theorem responseOf_outLen_le {restricted : Bool} {q : Request} {bs : List Byte} {i : Instr} {r : Results}
    {n : Nat} (h : responseOf restricted i q bs = .ok r) (hn : r.outLen = some n) :
    n ≤ if i = .frameEnc then bs.length + 5 else 10 := by
  have hi := returns_outLen (returns_of_responseOf h) hn
  cases i with
  | rlEnc =>
    simp only [responseOf, rlEncResults, emitAll_eq] at h
    split at h <;> cases h
    cases hn
    exact (rlEncode_length ‹_›).trans (show 4 ≤ 10 by decide)
  | fhEnc =>
    simp only [responseOf, fhEncResults, emitAll_eq] at h
    split at h <;> cases h
    cases hn
    exact (fhEncode_length ‹_›).trans (show 5 ≤ 10 by decide)
  | cvhEnc =>
    simp only [responseOf, cvhEncResults, emitAll_eq] at h
    split at h <;> cases h
    cases hn
    exact (cvhEncode_length ‹_›).le
  | cavhEnc =>
    simp only [responseOf, emitAll_eq] at h
    cases h
    cases hn
    exact show 2 ≤ 10 by decide
  | frameEnc =>
    simp only [responseOf, frameEncResults, emitAll_eq] at h
    split at h <;> cases h
    rename_i f hf
    cases hn
    have := fhEncode_length hf
    simp only [List.length_append, if_true]
    omega
  | _ => exact absurd hi (by decide)

/-- Settles O19: the bytes past a command's bound do not reach what it computes, and what it emits is a header
of at most five bytes before a body that is IN, or at most ten bytes in all. -/
theorem everyCommandTerminatesWithinItsBounds : Obligations.EveryCommandTerminatesWithinItsBounds := by
  refine ⟨fun i s hin => exec_terminates hin, fun i s s' n bs bs' hlim hports hb hb' htake => ?_,
    fun s s' hpt hne hin hin' => ?_, fun i s t n h hn => ?_⟩
  · refine sameResponse_of_responseOf_eq hb hb' ?_
    rw [← responseOf_take hlim, htake, responseOf_take hlim, StateRules.responseOf_congr hports]
  · obtain ⟨bs, hb⟩ := (exists_holds_iff s.req).2 hin
    obtain ⟨bs', hb'⟩ := (exists_holds_iff s'.req).2 hin'
    refine sameResponse_of_responseOf_eq hb hb' ?_
    simp only [responseOf, cvhDecResults, cvhDecode_wrongType hne, cvhDecode_wrongType (hpt ▸ hne)]
  · obtain ⟨bs, hb, rfl⟩ := exec_next h
    cases hr : responseOf true i s.req bs with
    | error e => rw [hr] at hn; cases hn
    | ok r =>
      rw [hr] at hn
      refine ⟨returns_outLen (returns_of_responseOf hr) hn, (responseOf_outLen_le hr hn).trans ?_⟩
      split
      · next hi =>
        subst hi
        obtain ⟨hlen, -⟩ := hb rfl
        rw [hlen]
      · exact le_rfl

end Sys2Proof.Proofs.Hazards
end
